-- ==== Sys2Proof/Word.lean ====
section
/-! DEFINITION. The data of the block: bytes and byte sequences (00_scope.md R11, R12). -/

namespace Sys2Proof

/-- A byte, an unsigned 8-bit value; bit 7 is the most significant (R11). -/
abbrev Byte := BitVec 8

/-- A byte sequence; element 0 is the first byte in time (R12). -/
abbrev ByteSeq := List Byte

end Sys2Proof
end

