-- ==== Sys2Proof/Config.lean ====
section
/-! DEFINITION. What is fixed when the block is built (00_scope.md R6, table P1), and the host's own parameters
(00_scope.md R10, table P2). No value of table P1 is in the source (91_not_in_source.md N1 to N8): every one is open. -/

namespace Sys2Proof

/-- The protocol constants of table P1, "fixed at construction" (R6, R27). -/
structure Params where
  /-- `MARKER`, the frame-start sync byte (D1). -/
  marker    : Byte
  /-- `CRC_POLY` in normal form: bit `i` is the coefficient of x^i, the x^8 term left out (R93, D2). -/
  crcPoly   : Byte
  /-- `CRC_INIT`, loaded before any reflection (D3). -/
  crcInit   : Byte
  /-- `CRC_XOROUT`, the final mask (D4). -/
  crcXorOut : Byte
  /-- `REQ_LEN`, the request's length byte (D5). -/
  reqLen    : Byte
  /-- `REQ_DISC`, the "read request" discriminator (D6); `REQ_DISC_LEN` is its length. -/
  reqDisc   : ByteSeq
  /-- `REQ_SEP`, the separator byte (D7). -/
  reqSep    : Byte
  /-- `MEAS_DISC`, the "measurement response" discriminator (D8). -/
  measDisc  : ByteSeq
  /-- `MEAS_LO_IDX`, payload index of bits 7 to 0 of the measurement (D9). -/
  measLoIdx : Nat
  /-- `MEAS_HI_IDX`, payload index of bits 15 to 8 (D9). -/
  measHiIdx : Nat
  /-- `BUF_CAP`; `none` is "unbounded" (R9, D10). -/
  bufCap    : Option Nat
  deriving DecidableEq, Repr, Inhabited

/-- `REQ_DISC_LEN`. -/
abbrev Params.reqDiscLen (p : Params) : Nat := p.reqDisc.length

/-- What the source says of the constants and no more: non-zero initial value and final mask (R7, D3, D4), discriminators of at
least one byte (D6, D8), the high byte behind the low one (D9), and the derived `REQ_LEN = REQ_DISC_LEN + 3` (R8). No meaning
assumes it; a statement that needs a part of it takes that part as a premise. -/
def Params.valid (p : Params) : Bool :=
  p.crcInit != 0 && p.crcXorOut != 0 && p.reqLen.toNat == p.reqDiscLen + 3 &&
    decide (1 ≤ p.reqDiscLen) && decide (1 ≤ p.measDisc.length) && decide (p.measLoIdx < p.measHiIdx)

/-- The constants of the block as built: a free value, nothing is known of it (log entry 1). -/
opaque Config.built : Params

/-- `CRC_WIDTH`, fixed by the source (table P1). -/
abbrev Config.crcWidth : Nat := 8

/-- `CRC_REFIN`: the input bit order is reversed (table P1). -/
abbrev Config.crcRefIn : Bool := true

/-- `CRC_REFOUT`: the output bit order is reversed (table P1). -/
abbrev Config.crcRefOut : Bool := true

/-- `BAUD`, fixed by the source (table P2); the line is the transport's (60_exceptions.md R196). -/
abbrev Config.baud : Nat := 115200

/-- The host's parameters: table P2 but for the two that the source fixes (`BAUD`, `SENTINEL_RAW`), and `CLEAR_BETWEEN_ATTEMPTS` (D34). No meaning of the block reads one (R10). Times are in
milliseconds and plausibility bounds in tenths of the physical unit, in which every bound on a one-decimal value can be said. -/
structure HostParams where
  senderId             : Byte
  addrRangeStart       : Byte
  addrRangeEnd         : Byte
  interPacketDelayMs   : Nat
  collectionWindowMs   : Nat
  maxAttempts          : Nat
  plausibleMinTenths   : Int
  plausibleMaxTenths   : Int
  readMaxBytes         : Nat
  readTimeoutMs        : Nat
  clearBetweenAttempts : Bool
  deriving DecidableEq, Repr, Inhabited

end Sys2Proof
end

