-- ==== Sys2Proof/Syntax.lean ====
section
/-! DEFINITION. The operations: one constructor per row of spec/opcode_table.json, in the table's order (30_encoding.md R78, R83,
R84). -/

namespace Sys2Proof

/-- A Frame value `(cid, size, payload)`; the marker is no part of it (00_scope.md R14). -/
structure Frame where
  cid     : Byte
  size    : Byte
  payload : ByteSeq
  deriving DecidableEq, Repr, Inhabited

/-- A Frame value's own law: `len(payload) = size` (R14). -/
def Frame.wf (f : Frame) : Bool := f.payload.length == f.size.toNat

/-- The operations (R78), the pseudo-operation `DRAIN` (R83, R145) and the three wire-format rows (R84). The operands of `CRC8`
and `ENCREQ` are numbers, so that a value outside 0 to 255, for which the spec names a fault (R99, R108), can be written down. -/
inductive Instr where
  /-- `NOP` (R152). -/
  | nop
  /-- `CRC8 data` (R90). -/
  | crc8 (data : List Nat)
  /-- `ENCREQ sender, destinationId, memoryAddress` (R105). -/
  | encreq (sender destinationId memoryAddress : Nat)
  /-- `TRYDEC window` (R110). -/
  | trydec (window : ByteSeq)
  /-- `XMEAS (cid, size, payload)` (R118). -/
  | xmeas (frame : Frame)
  /-- `FEED rawBytes` (R130). -/
  | feed (rawBytes : ByteSeq)
  /-- `NEXTFRAME` (R135). -/
  | nextframe
  /-- `CLEAR` (R150). -/
  | clear
  /-- `DRAIN`, a pseudo-operation with no op code of its own (R145). -/
  | drain
  /-- The wire row `FRAME`: are these bytes laid out as a frame (R60)? -/
  | frame (bytes : ByteSeq)
  /-- The wire row `REQUEST`: is this Frame value a request (R65)? -/
  | request (frame : Frame)
  /-- The wire row `MEASUREMENT`: is this Frame value a measurement (R66)? -/
  | measurement (frame : Frame)
  deriving DecidableEq, Repr

end Sys2Proof
end

