-- ==== Sys2Proof/WellFormed.lean ====
section
/-! DEFINITION. Which operations can be presented at the block's interface: every operand a byte (40_checksum.md R99,
41_frame_codec.md R108), every Frame operand with as many payload bytes as its size says (00_scope.md R14). -/

namespace Sys2Proof

/-- The number is a byte, 0 to 255. -/
def isByte (n : Nat) : Bool := decide (n < 256)

/-- Well-formedness of an operation, decidable. -/
def Instr.wf : Instr → Bool
  | .nop => true
  | .crc8 data => data.all isByte
  | .encreq sender destinationId memoryAddress => isByte sender && isByte destinationId && isByte memoryAddress
  | .trydec _ => true
  | .xmeas f => f.wf
  | .feed _ => true
  | .nextframe => true
  | .clear => true
  | .drain => true
  | .frame _ => true
  | .request f => f.wf
  | .measurement f => f.wf

end Sys2Proof
end

