-- ==== Sys2Proof/Decode.lean ====
section
/-! DEFINITION. The operation codes (30_encoding.md R81) and the bytes of one transaction (R79).

R79 has the host present the op code, the scalar operands, and the bytes of the sequence operand "in order with its end marked", and
fixes no signal. The model's transaction (log entry 3, DESIGN CHOICE) is a list of bytes: the op code in bits 2 to 0 of the first byte
and zeros above it; then the scalar operands, one byte each, in the order of table I1; then each byte of the sequence operand behind
a byte `01`, and a byte `00` as the end mark. -/

namespace Sys2Proof

/-- The 3-bit operation code (R81). `DRAIN` and the wire rows have none (R83, R84). -/
def Instr.opCode : Instr → Option (BitVec 3)
  | .nop => some 0
  | .crc8 _ => some 1
  | .encreq _ _ _ => some 2
  | .trydec _ => some 3
  | .xmeas _ => some 4
  | .feed _ => some 5
  | .nextframe => some 6
  | .clear => some 7
  | .drain => none
  | .frame _ => none
  | .request _ => none
  | .measurement _ => none

/-- Why bytes are no transaction. -/
inductive DecodeError where
  /-- The bytes end inside the transaction. -/
  | truncated
  /-- A bit above the 3-bit op code is set in the first byte. -/
  | opCodeTooWide
  /-- A byte of a sequence operand stands behind neither a `01` nor the end mark `00`. -/
  | badSequenceMark
  /-- The payload of a Frame operand has another length than its size byte says (R14). -/
  | frameSizeMismatch
  deriving DecidableEq, Repr

/-- A sequence operand with its end marked, and what follows it. -/
def takeSeq : ByteSeq → Except DecodeError (ByteSeq × ByteSeq)
  | [] => .error .truncated
  | [m] => if m = 0 then .ok ([], []) else if m = 1 then .error .truncated else .error .badSequenceMark
  | m :: b :: rest =>
    if m = 0 then .ok ([], b :: rest)
    else if m = 1 then
      match takeSeq rest with
      | .ok (bs, rest') => .ok (b :: bs, rest')
      | .error e => .error e
    else .error .badSequenceMark

/-- `CRC8`, op 1: the sequence `data`. -/
def decodeCrc8 (bs : ByteSeq) : Except DecodeError (Instr × ByteSeq) :=
  match takeSeq bs with
  | .ok (data, rest) => .ok (.crc8 (data.map BitVec.toNat), rest)
  | .error e => .error e

/-- `ENCREQ`, op 2: three scalars. -/
def decodeEncreq : ByteSeq → Except DecodeError (Instr × ByteSeq)
  | sender :: destinationId :: memoryAddress :: rest =>
    .ok (.encreq sender.toNat destinationId.toNat memoryAddress.toNat, rest)
  | _ => .error .truncated

/-- `TRYDEC`, op 3: the sequence `window`. -/
def decodeTrydec (bs : ByteSeq) : Except DecodeError (Instr × ByteSeq) :=
  match takeSeq bs with
  | .ok (window, rest) => .ok (.trydec window, rest)
  | .error e => .error e

/-- `XMEAS`, op 4: the scalars `cid` and `size`, the sequence `payload` of `size` bytes. -/
def decodeXmeas : ByteSeq → Except DecodeError (Instr × ByteSeq)
  | cid :: size :: bs =>
    match takeSeq bs with
    | .ok (payload, rest) =>
      if payload.length = size.toNat then .ok (.xmeas ⟨cid, size, payload⟩, rest) else .error .frameSizeMismatch
    | .error e => .error e
  | _ => .error .truncated

/-- `FEED`, op 5: the sequence `rawBytes`. -/
def decodeFeed (bs : ByteSeq) : Except DecodeError (Instr × ByteSeq) :=
  match takeSeq bs with
  | .ok (rawBytes, rest) => .ok (.feed rawBytes, rest)
  | .error e => .error e

/-- Read one transaction from the front of the bytes: the operation and what follows it (R79, R81). All eight op codes are
assigned, so no op code is refused. -/
def decode : ByteSeq → Except DecodeError (Instr × ByteSeq)
  | [] => .error .truncated
  | op :: bs =>
    match op.toNat with
    | 0 => .ok (.nop, bs)
    | 1 => decodeCrc8 bs
    | 2 => decodeEncreq bs
    | 3 => decodeTrydec bs
    | 4 => decodeXmeas bs
    | 5 => decodeFeed bs
    | 6 => .ok (.nextframe, bs)
    | 7 => .ok (.clear, bs)
    | _ => .error .opCodeTooWide

/-- A sequence operand with its end marked. -/
def encodeSeq : ByteSeq → ByteSeq
  | [] => [0]
  | b :: bs => 1 :: b :: encodeSeq bs

/-- The bytes of a well-formed operation's transaction; `none` for the rows that have no op code (R83, R84). -/
def encode : Instr → Option ByteSeq
  | .nop => some [0]
  | .crc8 data => some (1 :: encodeSeq (data.map (BitVec.ofNat 8)))
  | .encreq sender destinationId memoryAddress =>
    some [2, BitVec.ofNat 8 sender, BitVec.ofNat 8 destinationId, BitVec.ofNat 8 memoryAddress]
  | .trydec window => some (3 :: encodeSeq window)
  | .xmeas frame => some (4 :: frame.cid :: frame.size :: encodeSeq frame.payload)
  | .feed rawBytes => some (5 :: encodeSeq rawBytes)
  | .nextframe => some [6]
  | .clear => some [7]
  | .drain => none
  | .frame _ => none
  | .request _ => none
  | .measurement _ => none

/-- The `n` low bytes of a number, the least significant first. -/
def bytesOfWord : Nat → Nat → ByteSeq
  | 0, _ => []
  | n + 1, w => BitVec.ofNat 8 w :: bytesOfWord n (w / 256)

/-- The bytes of a transaction whose table bits are `w`: `nbits` bits in whole bytes, then operand bytes of zeros, three of which
are enough for every operation (`ENCREQ` has three scalars, `XMEAS` two and an end mark). -/
def tableWordBytes (nbits w : Nat) : ByteSeq := bytesOfWord ((nbits + 7) / 8) w ++ [0, 0, 0]

/-- The operation the decoder reads from an instruction whose bits are `w` as spec/opcode_table.json numbers them. -/
def decodeTableWord (nbits w : Nat) : Option Instr :=
  match decode (tableWordBytes nbits w) with
  | .ok (i, _) => some i
  | .error _ => none

end Sys2Proof
end

