-- ==== Sys2Proof/Machine/State.lean ====
section
/-! DEFINITION. The state of the block (10_state.md R20 to R31, table S1), the answer of a transaction (30_encoding.md R79, R80), and
the reasons a step can stop. -/

namespace Sys2Proof.Machine

/-- The status returned with every result (R80). -/
inductive Status where
  | ok | decoded | incomplete | ignorable | invalid | none | fault
  deriving DecidableEq, Repr

/-- The causes of table R180; each is a fault of the BLOCK, recorded in `FAULT`, after which the machine goes on (60_exceptions.md
R181, R187). They are no stops of the model. -/
inductive Cause where
  /-- Raised by `CRC8` for data that are not bytes (R182). -/
  | checksumComputeError
  /-- Raised by `ENCREQ` for an operand out of byte range (R183). -/
  | encodeRangeError
  /-- Raised by `FEED` when the bytes do not fit (R184). -/
  | bufferOverflow
  deriving DecidableEq, Repr

/-- What the block answers to one transaction: the status and the results of table I1 (R79). A result that table I1 does not call
valid for the status is `none`. `frames` is the result of the pseudo-operation `DRAIN` (R145); `sender`, `destinationId` and
`memoryAddress` are the fields of a recognised request (R65). -/
structure Answer where
  st            : Status
  crc           : Option Byte := none
  frame         : Option ByteSeq := none
  cid           : Option Byte := none
  size          : Option Byte := none
  consumed      : Option (BitVec 9) := none
  payload       : Option ByteSeq := none
  raw           : Option Int := none
  frames        : Option (List Frame) := none
  sender        : Option Byte := none
  destinationId : Option Byte := none
  memoryAddress : Option Byte := none
  deriving DecidableEq, Repr

/-- Everything the spec gives the machine (table S1), and the two ports of R79.

`buf` and `fault` are the architectural state. `cfg` is table S1's row "constants of table P1": written by nothing. `request` and
`answer` are the model's own (log entry 4): the bytes of the transactions the host has presented and the block has not yet taken,
and the answer to the last transaction as it stands on the interface. -/
structure State where
  /-- `BUF`: the bytes fed and not yet removed, the oldest first (R22). -/
  buf     : ByteSeq
  /-- `FAULT`, 3 bits, sticky (R25). -/
  fault   : BitVec 3
  /-- The constants of table P1 (R6, R27). -/
  cfg     : Params
  /-- The transactions presented and not yet taken. -/
  request : ByteSeq
  /-- The answer to the last transaction. -/
  answer  : Option Answer
  deriving DecidableEq, Repr

/-- A stop of the model. The spec gives the block none: its own faults go on (R187). Both constructors stand for a demand of the
spec's pseudocode that a meaning could only miss by a mistake of the model; that no state reaches them is a statement of this package. -/
inductive Fault where
  /-- Raised by `bufDrop` outside its domain, `n <= len(BUF)` (00_scope.md R13). Safe: it stops. -/
  | bufDropOutOfRange
  /-- Raised by the loops of `NEXTFRAME` and `DRAIN` if they outlast the bounds of R142 and R146. Safe: it stops. -/
  | loopBound
  deriving DecidableEq, Repr

/-- A refusal of the model. -/
inductive Refusal where
  /-- Raised by `exec` for an operation with no meaning yet. Safe: it stops. -/
  | notModelled (mnemonic : String)
  /-- Raised by `step` when the bytes at the request port are no transaction (log entry 3). Safe: it stops. -/
  | malformedRequest (e : DecodeError)
  deriving DecidableEq, Repr

/-- The state after reset (10_state.md R31, 70_reset_and_hazards.md R205): `BUF = <>`, `FAULT = 0`, the constants as built; no
transaction presented and no answer given. -/
def State.reset : State where
  buf := []
  fault := 0
  cfg := Config.built
  request := []
  answer := none

end Sys2Proof.Machine
end

