-- ==== Sys2Proof/Machine/Operands.lean ====
section
/-! DEFINITION. The operand forms and the notation of 00_scope.md section 4 (R11, R12). -/

namespace Sys2Proof.Machine

/-- `reflect8(b)`: bit `i` of the result is `b[7 - i]` (R11). -/
def reflect8 (b : Byte) : Byte := b.reverse

/-- `s[i:j]`, elements `i` to `j - 1` (R12). -/
def slice (s : ByteSeq) (i j : Nat) : ByteSeq := (s.take j).drop i

/-- `first_index(s, v)`: the least `i` with `s[i] = v`, or none (R12). The comparison is of whole bytes (20_memory.md R46). -/
def firstIndex : ByteSeq → Byte → Option Nat
  | [], _ => none
  | b :: bs, v => if b = v then some 0 else (firstIndex bs v).map (· + 1)

/-- `starts_with(s, p)` (R12). -/
def startsWith (s p : ByteSeq) : Bool := decide (p.length ≤ s.length) && s.take p.length == p

/-- `sext_16(v)` of a 16-bit value (R11): two's complement (R67). -/
def sext16 (v : Nat) : Int := if v < 32768 then (v : Int) else (v : Int) - 65536

/-- The operand of `CRC8` as bytes, or none where an element is no byte (40_checksum.md R99). -/
def toBytes : List Nat → Option ByteSeq
  | [] => some []
  | n :: ns => if n < 256 then (toBytes ns).map (BitVec.ofNat 8 n :: ·) else none

/-- The scalar operands of `ENCREQ`, in the order in which they are tested (41_frame_codec.md R108). -/
inductive RequestOperand where
  | sender | destinationId | memoryAddress
  deriving DecidableEq, Repr

/-- The first operand of `ENCREQ` that is no byte, in the order sender, destinationId, memoryAddress (R108, 60_exceptions.md R189). -/
def firstOutOfRange (sender destinationId memoryAddress : Nat) : Option RequestOperand :=
  if 256 ≤ sender then some .sender
  else if 256 ≤ destinationId then some .destinationId
  else if 256 ≤ memoryAddress then some .memoryAddress
  else none

end Sys2Proof.Machine
end

