-- ==== Sys2Proof/Machine/Flags.lean ====
section
/-! DEFINITION. Status codes (30_encoding.md R80) and the fault register's codes and stickiness (60_exceptions.md R180, 10_state.md
R25). The block has no condition codes (R26). -/

namespace Sys2Proof.Machine

/-- The 3-bit status code (R80); code 6 is unused. -/
def Status.code : Status → BitVec 3
  | .ok => 0
  | .decoded => 1
  | .incomplete => 2
  | .ignorable => 3
  | .invalid => 4
  | .none => 5
  | .fault => 7

/-- The code `FAULT` takes for a cause (R180); 0 means no fault recorded. -/
def Cause.code : Cause → BitVec 3
  | .checksumComputeError => 1
  | .encodeRangeError => 2
  | .bufferOverflow => 3

/-- `FAULT` keeps the first cause (R25, R181). -/
def recordFault (old : BitVec 3) (c : Cause) : BitVec 3 := if old = 0 then c.code else old

end Sys2Proof.Machine
end

