-- ==== Sys2Proof/Machine/Ops.lean ====
section
/-! DEFINITION. The named operations over `BUF`, the interface and the fault register: the primitives of 00_scope.md R13, the status
outputs of 10_state.md R28, and fault entry (60_exceptions.md R181). A fault has no return operation (R187). -/

namespace Sys2Proof.Machine

/-- An answer with a status and no result. -/
def Answer.ofStatus (st : Status) : Answer := { st := st }

/-- A transaction ends with its answer on the interface (R79). -/
def State.reply (s : State) (a : Answer) : State := { s with answer := some a }

/-- `BUF <- b`. -/
def State.setBuf (s : State) (b : ByteSeq) : State := { s with buf := b }

/-- The bytes of the transactions still presented. -/
def State.setRequest (s : State) (r : ByteSeq) : State := { s with request := r }

/-- Fault entry (R181): status Fault and no other result; nothing changes but `FAULT`, which takes the code if it was 0. -/
def State.raise (s : State) (c : Cause) : State :=
  { s with fault := recordFault s.fault c, answer := some (Answer.ofStatus .fault) }

/-- The output `BUF_LEN` (R28). -/
def State.bufLen (s : State) : Nat := s.buf.length

/-- The output `FAULT` (R28). -/
def State.faultOut (s : State) : BitVec 3 := s.fault

/-- The byte of `BUF` at an index; none at an index that is not valid (20_memory.md R40). -/
def State.readByte (s : State) (a : Nat) : Option Byte := s.buf[a]?

/-- `MemRead(addr, n)`: `BUF[addr : addr + n]`, defined only when `addr + n <= len(BUF)` (R13). -/
def memRead (buf : ByteSeq) (addr n : Nat) : Option ByteSeq :=
  if addr + n ≤ buf.length then some (slice buf addr (addr + n)) else none

/-- `BufAppend(s)`: `BUF <- BUF ++ s` (R13). -/
def bufAppend (buf s : ByteSeq) : ByteSeq := buf ++ s

/-- `BufDrop(n)`: `BUF <- BUF[n:]`, defined only when `n <= len(BUF)` (R13). -/
def bufDrop (n : Nat) (buf : ByteSeq) : Except Fault ByteSeq :=
  if n ≤ buf.length then .ok (buf.drop n) else .error .bufDropOutOfRange

/-- Would `n` bytes be more than `BUF_CAP` (42_stream_reassembler.md R131)? Never, when it is unbounded (R133). -/
def exceedsCap (cap : Option Nat) (n : Nat) : Bool :=
  match cap with
  | none => false
  | some c => decide (c < n)

/-! `BUF` as an address space (20_memory.md R40): index and byte, the indices 0 to `len(BUF) - 1` and no other. State holds the bytes
once, as the sequence R22 says they are; this view is computed (log entry 5). -/

/-- The cells of a sequence whose first byte has index `k`. -/
def Memory.cellsFrom : Nat → ByteSeq → List Host.Cell
  | _, [] => []
  | k, b :: bs => (k, b) :: Memory.cellsFrom (k + 1) bs

/-- The cells of `BUF`. -/
def Memory.cells (buf : ByteSeq) : List Host.Cell := Memory.cellsFrom 0 buf

/-- The addresses are `k`, `k + 1`, and so on: strictly rising and without a gap. -/
def Memory.wfFrom : Nat → List Host.Cell → Bool
  | _, [] => true
  | k, c :: cs => c.1 == k && Memory.wfFrom (k + 1) cs

/-- The canonical form of `BUF` as cells: every valid index once, in order, from 0. An unlisted index reads as no value. -/
def Memory.wf (m : List Host.Cell) : Bool := Memory.wfFrom 0 m

/-- The byte at an address; none where the address is not listed. -/
def Memory.read : List Host.Cell → Nat → Option Byte
  | [], _ => none
  | c :: cs, a => if c.1 = a then some c.2 else Memory.read cs a

end Sys2Proof.Machine
end

