-- ==== Sys2Proof/Machine/Checksum.lean ====
section
/-! DEFINITION. The checksum operation `CRC8` (40_checksum.md). The computation, R91 to R95, is marked by the spec itself as supplied
from general knowledge (93_implementation_defined.md GK1). -/

namespace Sys2Proof.Machine

/-- Reflection where the parameter asks for it (R94, R95: it always does). -/
def reflectIf (on : Bool) (b : Byte) : Byte := if on then reflect8 b else b

/-- One shift of the register: the bit shifted out of bit 7 selects the polynomial (R92). -/
def crcShift (poly t : Byte) : Byte := if t.getLsbD 7 then (t <<< 1) ^^^ poly else t <<< 1

/-- `n` shifts. -/
def crcShifts (poly : Byte) : Nat → Byte → Byte
  | 0, t => t
  | n + 1, t => crcShifts poly n (crcShift poly t)

/-- `crc8_step(reg, b)`: the byte enters reflected, then eight shifts (R92, R94). -/
def crc8Step (poly reg b : Byte) : Byte := crcShifts poly Config.crcWidth (reg ^^^ reflectIf Config.crcRefIn b)

/-- The register after a sequence, from a register value (R91). -/
def crc8Reg (poly : Byte) (reg : Byte) (data : ByteSeq) : Byte := data.foldl (crc8Step poly) reg

/-- `crc8_final(reg)`: reflect, then the mask (R95). -/
def crc8Final (xorOut reg : Byte) : Byte := reflectIf Config.crcRefOut reg ^^^ xorOut

/-- `crc8(data)` (R91). -/
def crc8 (p : Params) (data : ByteSeq) : Byte := crc8Final p.crcXorOut (crc8Reg p.crcPoly p.crcInit data)

/-- One shift of the equivalent form, least significant bit first (R97). -/
def crcShiftLsb (poly r : Byte) : Byte := if r.getLsbD 0 then (r >>> 1) ^^^ reflect8 poly else r >>> 1

/-- `n` shifts of the equivalent form. -/
def crcShiftsLsb (poly : Byte) : Nat → Byte → Byte
  | 0, r => r
  | n + 1, r => crcShiftsLsb poly n (crcShiftLsb poly r)

/-- The equivalent form of R97, with the register held bit-reversed. No meaning uses it. -/
def crc8Lsb (p : Params) (data : ByteSeq) : Byte :=
  data.foldl (fun r b => crcShiftsLsb p.crcPoly 8 (r ^^^ b)) (reflect8 p.crcInit) ^^^ p.crcXorOut

/-- `CRC8 data -> st, crc` (R90); `ChecksumComputeError` for data that are not bytes (R99, 60_exceptions.md R182). -/
def execCrc8 (data : List Nat) (s : State) : Host.Outcome State Fault Refusal :=
  match toBytes data with
  | none => .next (s.raise .checksumComputeError)
  | some bs => .next (s.reply { st := .ok, crc := some (crc8 s.cfg bs) })

end Sys2Proof.Machine
end

