-- ==== Sys2Proof/Machine/Codec.lean ====
section
/-! DEFINITION. The frame codec `ENCREQ`, `TRYDEC`, `XMEAS` (41_frame_codec.md; layouts 30_encoding.md R60, R64, R66). None of them
reads or writes `BUF`. -/

namespace Sys2Proof.Machine

/-! ## ENCREQ -/

/-- `body` of R107: the request frame before its checksum, in wire order (R64). -/
def requestBody (p : Params) (sender destinationId memoryAddress : Byte) : ByteSeq :=
  [p.marker, sender, p.reqLen] ++ p.reqDisc ++ [destinationId, p.reqSep, memoryAddress]

/-- The request frame: the body and CRC8 of every byte of it (R63, R107). -/
def requestFrame (p : Params) (sender destinationId memoryAddress : Byte) : ByteSeq :=
  requestBody p sender destinationId memoryAddress ++ [crc8 p (requestBody p sender destinationId memoryAddress)]

/-- `ENCREQ sender, destinationId, memoryAddress -> st, frame` (R105, R107); `EncodeRangeError` for an operand that is no byte, and
then no frame (R108). -/
def execEncreq (sender destinationId memoryAddress : Nat) (s : State) : Host.Outcome State Fault Refusal :=
  match firstOutOfRange sender destinationId memoryAddress with
  | some _ => .next (s.raise .encodeRangeError)
  | none =>
    .next (s.reply {
      st := .ok
      frame := some (requestFrame s.cfg (BitVec.ofNat 8 sender) (BitVec.ofNat 8 destinationId) (BitVec.ofNat 8 memoryAddress)) })

/-! ## TRYDEC -/

/-- The outcomes of `TRYDEC` with their results (R112). -/
inductive DecOutcome where
  | invalid
  | incomplete
  | ignorable (cid : Byte) (consumed : Nat)
  | decoded (cid size : Byte) (consumed : Nat) (payload : ByteSeq)
  deriving DecidableEq, Repr

/-- The tests of R112 in their order: Invalid, Incomplete by the 3-byte test, Ignorable, Incomplete by the size test, Decoded
(60_exceptions.md R189). The size byte is unsigned and `3 + size` does not wrap (30_encoding.md R61). -/
def tryDec (marker : Byte) (window : ByteSeq) : DecOutcome :=
  match window with
  | [] => .incomplete
  | m :: rest =>
    if m ≠ marker then .invalid
    else
      match rest with
      | cid :: size :: _ =>
        if size = 0 then .ignorable cid 3
        else if window.length < 3 + size.toNat then .incomplete
        else .decoded cid size (3 + size.toNat) (slice window 3 (3 + size.toNat))
      | _ => .incomplete

/-- The answer of `TRYDEC` (table I1). -/
def DecOutcome.answer : DecOutcome → Answer
  | .invalid => Answer.ofStatus .invalid
  | .incomplete => Answer.ofStatus .incomplete
  | .ignorable cid consumed =>
    { st := .ignorable, cid := some cid, size := some 0, consumed := some (BitVec.ofNat 9 consumed) }
  | .decoded cid size consumed payload =>
    { st := .decoded, cid := some cid, size := some size, consumed := some (BitVec.ofNat 9 consumed), payload := some payload }

/-- `TRYDEC window -> st, cid, size, consumed, payload` (R110). -/
def execTrydec (window : ByteSeq) (s : State) : Host.Outcome State Fault Refusal :=
  .next (s.reply (tryDec s.cfg.marker window).answer)

/-! ## XMEAS -/

/-- The raw value of a payload that is a measurement: it starts with `MEAS_DISC` and is longer than `MEAS_HI_IDX` (R66); the byte at
`MEAS_LO_IDX` holds bits 7 to 0 and the byte at `MEAS_HI_IDX` bits 15 to 8 (R67, 20_memory.md R44).DESIGN CHOICE (log entry 12): with
constants that break D9 the test can hold with no byte at `MEAS_LO_IDX`; then there is no raw value. -/
def rawMeasurement (p : Params) (payload : ByteSeq) : Option Int :=
  if startsWith payload p.measDisc && decide (p.measHiIdx < payload.length) then
    match payload[p.measHiIdx]?, payload[p.measLoIdx]? with
    | some hi, some lo => some (sext16 (hi.toNat * 256 + lo.toNat))
    | _, _ => none
  else none

/-- Ok with the raw value, or None (R119). -/
def rawAnswer (r : Option Int) : Answer :=
  match r with
  | some raw => { st := .ok, raw := some raw }
  | none => Answer.ofStatus .none

/-- `XMEAS (cid, size, payload) -> st, raw` (R118, R119): `cid` and `size` are not examined. -/
def execXmeas (frame : Frame) (s : State) : Host.Outcome State Fault Refusal :=
  .next (s.reply (rawAnswer (rawMeasurement s.cfg frame.payload)))

end Sys2Proof.Machine
end

