-- ==== Sys2Proof/Machine/Reassembler.lean ====
section
/-! DEFINITION. The stream reassembler `FEED`, `NEXTFRAME`, `DRAIN`, `CLEAR`, and `NOP` (42_stream_reassembler.md). -/

namespace Sys2Proof.Machine

/-! ## FEED -/

/-- `FEED rawBytes -> st` (R130, R131): all of the bytes are appended, or `BufferOverflow` and none of them (R133). -/
def execFeed (rawBytes : ByteSeq) (s : State) : Host.Outcome State Fault Refusal :=
  .next
    (if exceedsCap s.cfg.bufCap (s.bufLen + rawBytes.length) then s.raise .bufferOverflow
     else (s.setBuf (bufAppend s.buf rawBytes)).reply (Answer.ofStatus .ok))

/-! ## NEXTFRAME -/

/-- What one iteration of the loop of R136 decides. -/
inductive ScanStep where
  /-- No marker, or the frame at the first marker is incomplete: return None (R137, R141). -/
  | stop
  /-- An ignorable frame: drop `n` bytes and go on (R139). -/
  | skip (n : Nat)
  /-- A complete frame: drop `n` bytes and return it (R140). -/
  | emit (n : Nat) (frame : Frame)
  deriving DecidableEq, Repr

/-- One iteration of R136: the first marker, and `TRYDEC` of the window from it to the end of `BUF` (R138). The window begins at a
marker, so Invalid does not occur; the arm is there because `DecOutcome` has it. -/
def scanStep (marker : Byte) (buf : ByteSeq) : ScanStep :=
  match firstIndex buf marker with
  | none => .stop
  | some i =>
    match tryDec marker (buf.drop i) with
    | .invalid => .stop
    | .incomplete => .stop
    | .ignorable _ consumed => .skip (i + consumed)
    | .decoded cid size consumed payload => .emit (i + consumed) ⟨cid, size, payload⟩

/-- The loop of R136: what is left of `BUF`, and the frame found. The first argument bounds the iterations (R142). -/
def scan (marker : Byte) : Nat → ByteSeq → Except Fault (ByteSeq × Option Frame)
  | 0, _ => .error .loopBound
  | n + 1, buf =>
    match scanStep marker buf with
    | .stop => .ok (buf, none)
    | .skip k =>
      match bufDrop k buf with
      | .ok buf' => scan marker n buf'
      | .error e => .error e
    | .emit k f =>
      match bufDrop k buf with
      | .ok buf' => .ok (buf', some f)
      | .error e => .error e

/-- The iterations of one `NEXTFRAME`: each but the last drops at least 3 bytes (R142, log entry 8). -/
def scanBound (buf : ByteSeq) : Nat := buf.length / 3 + 1

/-- The answer of `NEXTFRAME` (table I1): Decoded with the Frame value, or None. -/
def frameAnswer (f : Option Frame) : Answer :=
  match f with
  | some f => { st := .decoded, cid := some f.cid, size := some f.size, payload := some f.payload }
  | none => Answer.ofStatus .none

/-- `NEXTFRAME -> st, cid, size, payload` (R135, R136). -/
def execNextframe (s : State) : Host.Outcome State Fault Refusal :=
  match scan s.cfg.marker (scanBound s.buf) s.buf with
  | .ok (buf', f) => .next ((s.setBuf buf').reply (frameAnswer f))
  | .error e => .fault e

/-! ## DRAIN -/

/-- The Frame value of an answer of `NEXTFRAME`, if it is Decoded. -/
def Answer.frameValue (a : Answer) : Option Frame :=
  match a.st, a.cid, a.size, a.payload with
  | .decoded, some cid, some size, some payload => some ⟨cid, size, payload⟩
  | _, _, _, _ => none

/-- `NEXTFRAME` until one returns None, collecting the Frame values (R145). The first argument bounds their number (R146). The answer is
the last `NEXTFRAME`'s None with the frames beside it. -/
def drainLoop : Nat → State → List Frame → Host.Outcome State Fault Refusal
  | 0, _, _ => .fault .loopBound
  | n + 1, s, acc =>
    match execNextframe s with
    | .next s' =>
      match s'.answer.bind Answer.frameValue with
      | some f => drainLoop n s' (acc ++ [f])
      | none => .next (s'.reply { st := .none, frames := some acc })
    | .fault e => .fault e
    | .refused r => .refused r

/-- `DRAIN -> frames` (R145); at most `len(BUF) / 3 + 1` `NEXTFRAME`s (R146). -/
def execDrain (s : State) : Host.Outcome State Fault Refusal := drainLoop (s.bufLen / 3 + 1) s []

/-! ## CLEAR and NOP -/

/-- `CLEAR -> st` (R150): `BUF <- <>`; `FAULT` stays. -/
def execClear (s : State) : Host.Outcome State Fault Refusal := .next ((s.setBuf []).reply (Answer.ofStatus .ok))

/-- `NOP -> st` (R152). -/
def execNop (s : State) : Host.Outcome State Fault Refusal := .next (s.reply (Answer.ofStatus .ok))

end Sys2Proof.Machine
end

