-- ==== Sys2Proof/Machine/Wire.lean ====
section
/-! DEFINITION. The three wire-format rows `FRAME`, `REQUEST`, `MEASUREMENT` (30_encoding.md R60, R64 to R66, R84). They are layouts
and no operations of the block; the model gives each row the recognition the spec states for its layout, as a pure function whose answer
stands on the interface and which touches neither `BUF` nor `FAULT` (log entry 7). -/

namespace Sys2Proof.Machine

/-- The bytes of a Frame value on the wire, offsets 0 to `2 + size` (R60). -/
def frameBytes (p : Params) (f : Frame) : ByteSeq := p.marker :: f.cid :: f.size :: f.payload

/-- The layout of R60 read backwards: marker, cid, size, `size` payload bytes, and then either nothing or one checksum byte, which is
CRC8 of every byte before it (R63). -/
def parseFrame (p : Params) (bytes : ByteSeq) : Option (Frame × Option Byte) :=
  match bytes with
  | m :: cid :: size :: rest =>
    if m = p.marker then
      if rest.length = size.toNat then some (⟨cid, size, rest⟩, none)
      else if rest.length = size.toNat + 1 then
        match bytes[3 + size.toNat]? with
        | some c =>
          if c = crc8 p (slice bytes 0 (3 + size.toNat)) then some (⟨cid, size, slice bytes 3 (3 + size.toNat)⟩, some c) else none
        | none => none
      else none
    else none
  | _ => none

/-- The answer of the row `FRAME`: the fields of the layout, the checksum byte where there is one, or None. -/
def wireFrameAnswer (r : Option (Frame × Option Byte)) : Answer :=
  match r with
  | some (f, c) => { st := .ok, cid := some f.cid, size := some f.size, payload := some f.payload, crc := c }
  | none => Answer.ofStatus .none

/-- The row `FRAME` (R60). -/
def execFrame (bytes : ByteSeq) (s : State) : Host.Outcome State Fault Refusal :=
  .next (s.reply (wireFrameAnswer (parseFrame s.cfg bytes)))

/-- R65: a Frame value is a request exactly when `size = REQ_LEN`, the payload starts with `REQ_DISC` and the byte behind the
destination id is `REQ_SEP`; its destination id and memory address then stand at `REQ_DISC_LEN` and `REQ_DISC_LEN + 2`.
DESIGN CHOICE (log entry 18): with constants that break R8 the three tests can hold with no byte at `REQ_DISC_LEN + 2`; then there is no
request. -/
def requestFields (p : Params) (f : Frame) : Option (Byte × Byte) :=
  if f.size = p.reqLen && startsWith f.payload p.reqDisc && f.payload[p.reqDiscLen + 1]? == some p.reqSep then
    match f.payload[p.reqDiscLen]?, f.payload[p.reqDiscLen + 2]? with
    | some d, some m => some (d, m)
    | _, _ => none
  else none

/-- The answer of the row `REQUEST`: the three fields of R65, or None. -/
def requestAnswer (cid : Byte) (r : Option (Byte × Byte)) : Answer :=
  match r with
  | some (d, m) => { st := .ok, sender := some cid, destinationId := some d, memoryAddress := some m }
  | none => Answer.ofStatus .none

/-- The row `REQUEST` (R64, R65): the test of the capture mode (60_exceptions.md R199). -/
def execRequest (frame : Frame) (s : State) : Host.Outcome State Fault Refusal :=
  .next (s.reply (requestAnswer frame.cid (requestFields s.cfg frame)))

/-- The row `MEASUREMENT` (R66, R67). -/
def execMeasurement (frame : Frame) (s : State) : Host.Outcome State Fault Refusal :=
  .next (s.reply (rawAnswer (rawMeasurement s.cfg frame.payload)))

end Sys2Proof.Machine
end

