-- ==== Sys2Proof/Machine/Dispatch.lean ====
section
/-! DEFINITION. One arm per operation, each one call of its meaning. -/

namespace Sys2Proof.Machine

def exec (i : Instr) (s : State) : Host.Outcome State Fault Refusal :=
  match i with
  | .nop => Sys2Proof.Machine.execNop s
  | .crc8 data => Sys2Proof.Machine.execCrc8 data s
  | .encreq sender destinationId memoryAddress => Sys2Proof.Machine.execEncreq sender destinationId memoryAddress s
  | .trydec window => Sys2Proof.Machine.execTrydec window s
  | .xmeas frame => Sys2Proof.Machine.execXmeas frame s
  | .feed rawBytes => Sys2Proof.Machine.execFeed rawBytes s
  | .nextframe => Sys2Proof.Machine.execNextframe s
  | .clear => Sys2Proof.Machine.execClear s
  | .drain => Sys2Proof.Machine.execDrain s
  | .frame bytes => Sys2Proof.Machine.execFrame bytes s
  | .request frame => Sys2Proof.Machine.execRequest frame s
  | .measurement frame => Sys2Proof.Machine.execMeasurement frame s

end Sys2Proof.Machine
end

