-- ==== Sys2Proof/Machine/Step.lean ====
section
/-! DEFINITION. One step: the block takes the next transaction the host has presented and runs it whole (20_memory.md R49, R51). It
has no program counter and fetches nothing (10_state.md R21); with no transaction presented it waits (70_reset_and_hazards.md R205). -/

namespace Sys2Proof.Machine

/-- Take the transaction at the front of the request port, and run it; wait while there is none; refuse bytes that are no transaction. -/
def step (s : State) : Host.Outcome State Fault Refusal :=
  match s.request with
  | [] => .next s
  | _ :: _ =>
    match decode s.request with
    | .ok (i, rest) => exec i (s.setRequest rest)
    | .error e => .refused (.malformedRequest e)

/-- `s` with the transaction of the table bits `w` presented alone at the request port. -/
def State.withFetchWord (s : State) (nbits w : Nat) : State :=
  s.setRequest
    (match decode (tableWordBytes nbits w) with
     | .ok (_, rest) => (tableWordBytes nbits w).take ((tableWordBytes nbits w).length - rest.length)
     | .error _ => tableWordBytes nbits w)

end Sys2Proof.Machine
end

