-- ==== Sys2Proof/Machine/HostSide.lean ====
section
/-! DEFINITION. The host at the block's boundary: sequences of operations, and the poller of 45_host_poller.md as far as it is a
function of what the block answers. Nothing here is behaviour of the block (00_scope.md R4) and no meaning reads it; wall-clock time, the
transport and publishing stay outside (log entry 10). -/

namespace Sys2Proof.Machine

/-- The host issues operations one after another (00_scope.md R16); the answers in order. -/
def runOps : List Instr → State → Host.Outcome (State × List Answer) Fault Refusal
  | [], s => .next (s, [])
  | i :: is, s =>
    match exec i s with
    | .next s' =>
      match runOps is s' with
      | .next (t, answers) => .next (t, s'.answer.toList ++ answers)
      | .fault e => .fault e
      | .refused r => .refused r
    | .fault e => .fault e
    | .refused r => .refused r

/-- The Frame values an answer of `NEXTFRAME` or `DRAIN` hands to the host. -/
def Answer.framesReturned (a : Answer) : List Frame :=
  match a.frames with
  | some fs => fs
  | none => a.frameValue.toList

/-- The Frame values handed to the host by a list of answers, in order. -/
def framesOf (answers : List Answer) : List Frame := answers.flatMap Answer.framesReturned

/-- The receive path: `FEED r; DRAIN` for every read (R145, 30_encoding.md R83). -/
def receiveOps (reads : List ByteSeq) : List Instr := reads.flatMap fun r => [.feed r, .drain]

/-- The host of 42_stream_reassembler.md R147: a `FEED` of each chunk, some `NEXTFRAME`s after each, a `DRAIN` after the last. -/
def chunkedOps (chunks : List (ByteSeq × Nat)) : List Instr :=
  chunks.flatMap (fun c => .feed c.1 :: List.replicate c.2 .nextframe) ++ [.drain]

/-- The destination ids of a sweep, in increasing order, both ends included (45_host_poller.md R158, D32). -/
def sweepIds (hp : HostParams) : List Byte :=
  (List.range (hp.addrRangeEnd.toNat + 1 - hp.addrRangeStart.toNat)).map fun k => BitVec.ofNat 8 (hp.addrRangeStart.toNat + k)

/-- A sweep: one `ENCREQ` for every destination id, all for one memory address (R158). -/
def sweepOps (hp : HostParams) (memoryAddress : Byte) : List Instr :=
  (sweepIds hp).map fun d => .encreq hp.senderId.toNat d.toNat memoryAddress.toNat

/-- One attempt: `CLEAR` where the host issues it before a sweep (D34), the sweep, then the reads of the collection window (R161). -/
def attemptOps (hp : HostParams) (memoryAddress : Byte) (reads : List ByteSeq) : List Instr :=
  (if hp.clearBetweenAttempts then [.clear] else []) ++ sweepOps hp memoryAddress ++ receiveOps reads

/-- `SENTINEL_RAW`, the raw reading that means "no sensor connected" (table P2, R162). -/
def sentinelRaw : Int := 32767

/-- The result list of a window: the raw value of every measurement frame, the sentinel left out (R161, R162). -/
def collectRaws (p : Params) (frames : List Frame) : List Int :=
  (frames.filterMap fun f => rawMeasurement p f.payload).filter fun raw => raw != sentinelRaw

/-- The mean of `count` raws, in tenths of the unit, rounded to the nearest; `ROUND_TIE` is open, so a tie above `q` goes where the
argument says (R164, D30). -/
def roundTenths (tieUp : Int → Bool) (sum : Int) (count : Nat) : Int :=
  let q := sum / (count : Int)
  let r := sum % (count : Int)
  if 2 * r < count then q else if (count : Int) < 2 * r then q + 1 else if tieUp q then q + 1 else q

/-- Aggregate (R164): a non-empty list whose rounded mean lies within the bounds, both included; in tenths of the unit. -/
def aggregate (hp : HostParams) (tieUp : Int → Bool) (raws : List Int) : Option Int :=
  match raws with
  | [] => none
  | _ :: _ =>
    let v := roundTenths tieUp raws.sum raws.length
    if hp.plausibleMinTenths ≤ v ∧ v ≤ hp.plausibleMaxTenths then some v else none

/-- The attempts of a poll from number `attempt` on, `left` of them at most; `windows k` are the reads of attempt `k`'s window. Success at
the first accepted aggregate; Failure when no attempt is left (R156, R166). DESIGN CHOICE (log entry 19): where a FEED of the window answers
Fault, its read is dropped and the attempt goes on, so a poll may end in Success with `FAULT` not 0. -/
def pollAttempts (hp : HostParams) (tieUp : Int → Bool) (memoryAddress : Byte) (windows : Nat → List ByteSeq) :
    (left attempt : Nat) → State → Host.Outcome (State × Option Int) Fault Refusal
  | 0, _, s => .next (s, none)
  | left + 1, attempt, s =>
    match runOps (attemptOps hp memoryAddress (windows attempt)) s with
    | .next (t, answers) =>
      match aggregate hp tieUp (collectRaws s.cfg (framesOf answers)) with
      | some v => .next (t, some v)
      | none => pollAttempts hp tieUp memoryAddress windows left (attempt + 1) t
    | .fault e => .fault e
    | .refused r => .refused r

/-- A poll: attempts 0, 1 and so on, at least one and at most `MAX_ATTEMPTS` (R156). Whatever the line brings in each window is an argument,
and there is a window for every attempt. -/
def poll (hp : HostParams) (tieUp : Int → Bool) (memoryAddress : Byte) (windows : Nat → List ByteSeq) (s : State) :
    Host.Outcome (State × Option Int) Fault Refusal :=
  pollAttempts hp tieUp memoryAddress windows (max 1 hp.maxAttempts) 0 s

/-- The source's bound on the time of a poll, in milliseconds (R167). -/
def pollBoundMs (hp : HostParams) : Nat :=
  hp.maxAttempts * ((sweepIds hp).length * hp.interPacketDelayMs + hp.collectionWindowMs)

end Sys2Proof.Machine
end

