-- ==== Sys2Proof/Safety.lean ====
section
/-! DEFINITION. What every state of the block satisfies, and what counts as a run that has gone well. -/

namespace Sys2Proof.Machine

/-- `len(BUF) <= BUF_CAP` (20_memory.md R56). -/
def State.withinCap (s : State) : Prop := exceedsCap s.cfg.bufCap s.bufLen = false

/-- `FAULT` holds a code of table R180; 4 to 7 are never held (60_exceptions.md R180). -/
def State.legalFault (s : State) : Prop := s.fault = 0 ∨ ∃ c : Cause, s.fault = c.code

/-- The results of an answer are those table I1 calls valid for its status, with the lengths and ranges it gives (30_encoding.md R79, R80,
00_scope.md R14), under the constants `p`. Ok: nothing, or a checksum, or a frame of `7 + REQ_DISC_LEN` bytes, or a raw value of signed 16
bits; for the wire rows (log entry 7) also the fields of a frame or of a request. Decoded: a Frame value of at least one payload byte, and
`consumed` (TRYDEC) is `3 + size`. Ignorable: cid, size 0, three bytes consumed. None: nothing, or DRAIN's frames (log entry 11). -/
def Answer.wf (p : Params) (a : Answer) : Bool :=
  match a.st with
  | .ok =>
    a == { Answer.ofStatus .ok with crc := a.crc } ||
    (a == { Answer.ofStatus .ok with frame := a.frame } && a.frame.all fun f => f.length == 7 + p.reqDiscLen) ||
    (a == { Answer.ofStatus .ok with raw := a.raw } && a.raw.all fun r => decide (-32768 ≤ r) && decide (r ≤ 32767)) ||
    (a == { Answer.ofStatus .ok with cid := a.cid, size := a.size, payload := a.payload, crc := a.crc } && a.cid.isSome &&
      a.size.any fun n => a.payload.map List.length == some n.toNat) ||
    (a == { Answer.ofStatus .ok with sender := a.sender, destinationId := a.destinationId, memoryAddress := a.memoryAddress } &&
      a.sender.isSome && a.destinationId.isSome && a.memoryAddress.isSome)
  | .none => a == { Answer.ofStatus .none with frames := a.frames } && (a.frames.getD []).all fun f => f.wf && f.size != 0
  | .decoded =>
    a == { Answer.ofStatus .decoded with cid := a.cid, size := a.size, consumed := a.consumed, payload := a.payload } && a.cid.isSome &&
      a.size.any fun n => n != 0 && a.payload.map List.length == some n.toNat && a.consumed.all (· == BitVec.ofNat 9 (3 + n.toNat))
  | .ignorable => a.cid.isSome && a == { Answer.ofStatus .ignorable with cid := a.cid, size := some 0, consumed := some 3 }
  | .incomplete => a == Answer.ofStatus .incomplete
  | .invalid => a == Answer.ofStatus .invalid
  | .fault => a == Answer.ofStatus .fault

/-- The invariant: the buffer within its capacity, a legal fault code, and a well-formed answer, if any, on the interface. -/
def State.Inv (s : State) : Prop :=
  s.withinCap ∧ s.legalFault ∧ ∀ a, s.answer = some a → a.wf s.cfg = true

/-- No fault recorded: the premise the spec wants of a claim about a run (60_exceptions.md R187). -/
def State.faultFree (s : State) : Prop := s.fault = 0

end Sys2Proof.Machine
end

