-- ==== Sys2Proof/Certificates/Slice0/Obligations.lean ====
section
/-! DEFINITION. The statements about the block, each from the rules it cites in OBLIGATIONS.json.

An outcome written `.next { s with ... }` says the whole next state: every field of State that is not named is as before, so the statement
is the operation's frame as well. An answer written `{ st := ... }` has no result but those named.

Where the spec marks what a rule says as its own (a decision D<n> of 92_eei_decisions.md, a derivation, or general knowledge GK<n> of
93_implementation_defined.md), the docstring names that mark. -/

open Sys2Proof Sys2Proof.Machine

/-! ## The interface: codes, encoding, step -/

/-- R81, R83, R84: the op codes of the table; every 3-bit code selects an operation and decodes to it (operand bytes of zeros, log entry 3),
and the rows that are no operation have none. The codes are the spec's decision D20. -/
def Obligations.OpCodesAreTheTable : Prop :=
  (∀ data sender destinationId memoryAddress window f rawBytes bytes,
    Instr.opCode .nop = some 0 ∧ Instr.opCode (.crc8 data) = some 1 ∧
    Instr.opCode (.encreq sender destinationId memoryAddress) = some 2 ∧ Instr.opCode (.trydec window) = some 3 ∧
    Instr.opCode (.xmeas f) = some 4 ∧ Instr.opCode (.feed rawBytes) = some 5 ∧ Instr.opCode .nextframe = some 6 ∧
    Instr.opCode .clear = some 7 ∧ Instr.opCode .drain = none ∧ Instr.opCode (.frame bytes) = none ∧
    Instr.opCode (.request f) = none ∧ Instr.opCode (.measurement f) = none) ∧
  ∀ c : BitVec 3, ∃ (i : Instr) (rest : ByteSeq),
    i.wf = true ∧ i.opCode = some c ∧ decode (c.setWidth 8 :: [0, 0, 0]) = .ok (i, rest)

/-- R80, table R180: the status codes (decision D19), the fault codes (decision D18), and the codes that are never used. -/
def Obligations.StatusAndFaultCodesAreTheTables : Prop :=
  Status.ok.code = 0 ∧ Status.decoded.code = 1 ∧ Status.incomplete.code = 2 ∧ Status.ignorable.code = 3 ∧ Status.invalid.code = 4 ∧
  Status.none.code = 5 ∧ Status.fault.code = 7 ∧ (∀ st : Status, st.code ≠ 6) ∧
  Cause.checksumComputeError.code = 1 ∧ Cause.encodeRangeError.code = 2 ∧ Cause.bufferOverflow.code = 3

/-- Transactions written out byte by byte (the op codes are R81's; the transaction's bytes are the model's, log entry 3). -/
def Obligations.WrittenOutTransactionsDecode : Prop :=
  decode [0x00] = .ok (.nop, []) ∧
  decode [0x01, 0x01, 0x31, 0x01, 0x32, 0x00] = .ok (.crc8 [0x31, 0x32], []) ∧
  decode [0x02, 0x10, 0x40, 0x0A] = .ok (.encreq 0x10 0x40 0x0A, []) ∧
  decode [0x03, 0x01, 0x7E, 0x01, 0x10, 0x00] = .ok (.trydec [0x7E, 0x10], []) ∧
  decode [0x04, 0x20, 0x02, 0x01, 0xE1, 0x01, 0xE2, 0x00] = .ok (.xmeas ⟨0x20, 0x02, [0xE1, 0xE2]⟩, []) ∧
  decode [0x05, 0x00, 0x06] = .ok (.feed [], [0x06]) ∧
  decode [0x06, 0x07] = .ok (.nextframe, [0x07]) ∧
  decode [0x07] = .ok (.clear, []) ∧
  decode [0x08] = .error .opCodeTooWide ∧
  decode [0x04, 0x20, 0x03, 0x01, 0xE1, 0x00] = .error .frameSizeMismatch

/-- Encoding, then decoding: every well-formed operation that has an op code comes back whole, whatever follows it (log entry 3). -/
def Obligations.EncodedOperationDecodesToItself : Prop :=
  ∀ i : Instr, i.wf = true → i.opCode.isSome = true →
    ∃ bytes, encode i = some bytes ∧ ∀ rest, decode (bytes ++ rest) = .ok (i, rest)

/-- Decoding, then encoding: whatever decodes is well-formed, and the bytes taken are its encoding (log entry 3). -/
def Obligations.DecodedBytesAreTheEncoding : Prop :=
  ∀ (bs : ByteSeq) (i : Instr) (rest : ByteSeq), decode bs = .ok (i, rest) →
    i.wf = true ∧ ∃ bytes, encode i = some bytes ∧ bs = bytes ++ rest

/-- A step takes the transaction at the front of the port and is its operation's meaning on the state behind it. -/
def Obligations.StepRunsTheDecodedOperation : Prop :=
  ∀ (s : State) (i : Instr) (rest : ByteSeq), decode s.request = .ok (i, rest) → step s = exec i { s with request := rest }

/-- R21, R205: with no transaction presented the block waits; nothing changes. -/
def Obligations.StepWaitsForATransaction : Prop :=
  ∀ s : State, s.request = [] → step s = .next s

/-- A step stops only on bytes that are no transaction, and then by refusing them (log entry 3). -/
def Obligations.StepStopsOnlyOnMalformedBytes : Prop :=
  ∀ s : State, (∃ t, step s = .next t) ∨
    ∃ e, s.request ≠ [] ∧ decode s.request = .error e ∧ step s = .refused (.malformedRequest e)

/-- R225: every operation completes, on every operand and in every state: no meaning stops, and the bounds of R142 and R146 hold. -/
def Obligations.EveryOperationCompletes : Prop :=
  ∀ (i : Instr) (s : State), ∃ t, exec i s = .next t

/-! ## NOP, CLEAR and reset -/

/-- R152 (decision D20). -/
def Obligations.NopDoesNothing : Prop :=
  Instr.opCode .nop = some 0 ∧ ∀ s : State, exec .nop s = .next { s with answer := some { st := .ok } }

/-- R150 (decision D25). -/
def Obligations.ClearEmptiesBufAndKeepsFault : Prop :=
  Instr.opCode .clear = some 7 ∧ ∀ s : State, exec .clear s = .next { s with buf := [], answer := some { st := .ok } }

/-- R31, R205 (decision D16): what reset leaves in the architectural state. -/
def Obligations.ResetLeavesBufEmptyAndFaultZero : Prop :=
  State.reset.buf = [] ∧ State.reset.fault = 0 ∧ State.reset.bufLen = 0 ∧ State.reset.cfg = Config.built

/-! ## CRC8 -/

/-- R90 (op code: decision D20; the algorithm behind `crc8`: GK1, log entry 13). -/
def Obligations.Crc8AnswersTheChecksum : Prop :=
  ∀ (data : ByteSeq) (s : State),
    Instr.opCode (.crc8 (data.map BitVec.toNat)) = some 1 ∧
    exec (.crc8 (data.map BitVec.toNat)) s = .next { s with answer := some { st := .ok, crc := some (crc8 s.cfg data) } }

/-- R91, R92, R94, R95 (and R11's `reflect8`): the register starts at `CRC_INIT`; every byte enters reflected and is followed by eight
shifts; at the end the register is reflected and then masked. The spec marks the algorithm as general knowledge, GK1 (log entry 13). -/
def Obligations.Crc8IsTheFoldOfItsByteStep : Prop :=
  (∀ (p : Params) (data : ByteSeq),
    crc8 p data =
      reflect8 (data.foldl (fun reg b =>
        (fun t : Byte => if t.getLsbD 7 = true then (t <<< 1) ^^^ p.crcPoly else t <<< 1)^[8] (reg ^^^ reflect8 b)) p.crcInit)
      ^^^ p.crcXorOut) ∧
  ∀ (b : Byte) (i : Nat), i < 8 → (reflect8 b).getLsbD i = b.getLsbD (7 - i)

/-- R96 (derived there from R91 and R95). -/
def Obligations.Crc8OfNoBytes : Prop :=
  ∀ (p : Params) (s : State), crc8 p [] = reflect8 p.crcInit ^^^ p.crcXorOut ∧
    exec (.crc8 []) s = .next { s with answer := some { st := .ok, crc := some (reflect8 s.cfg.crcInit ^^^ s.cfg.crcXorOut) } }

/-- R97 (derived there): the form with the register held bit-reversed computes the same function; after every byte its register is the
reflected one. -/
def Obligations.Crc8LeastSignificantFirstFormAgrees : Prop :=
  ∀ (p : Params) (data : ByteSeq), crc8Lsb p data = crc8 p data ∧
    data.foldl (fun r b => (fun t : Byte => if t.getLsbD 0 = true then (t >>> 1) ^^^ reflect8 p.crcPoly else t >>> 1)^[8] (r ^^^ b))
      (reflect8 p.crcInit) = reflect8 (crc8Reg p.crcPoly p.crcInit data)

/-- R98 (derived there): `crc8(s ++ t)` continues the fold from the register reached after `s`. -/
def Obligations.Crc8ContinuesFromTheRegister : Prop :=
  ∀ (p : Params) (a b : ByteSeq), crc8 p (a ++ b) = crc8 { p with crcInit := crc8Reg p.crcPoly p.crcInit a } b

/-- R98: with a polynomial whose x^0 coefficient is 1, changing one byte anywhere changes the checksum. (The premise is the model's: R98's
"depends on every bit" does not hold of every polynomial, log entry 9.) -/
def Obligations.Crc8SeesOneChangedByte : Prop :=
  ∀ (p : Params) (before after : ByteSeq) (x y : Byte), p.crcPoly.getLsbD 0 = true → x ≠ y →
    crc8 p (before ++ x :: after) ≠ crc8 p (before ++ y :: after)

/-- The residue of 95_test_vectors.md V2: a sequence followed by its own checksum has one checksum, whatever the sequence. -/
def Obligations.Crc8ResidueIsConstant : Prop :=
  ∀ (p : Params) (data : ByteSeq), crc8 p (data ++ [crc8 p data]) = crc8 p [crc8 p []]

/-- R99, R182, and fault entry R181 (decision D17): data that are not bytes (log entry 6) raise `ChecksumComputeError`; no checksum is
answered. -/
def Obligations.Crc8OfNoByteRaises : Prop :=
  ∀ (data : List Nat) (s : State), (∃ n ∈ data, 256 ≤ n) →
    exec (.crc8 data) s = .next { s with fault := if s.fault = 0 then 1 else s.fault, answer := some { st := .fault } }

/-! ## ENCREQ -/

/-- R105, R107, and the layout R64: the frame, byte for byte, for all bytes; its last byte is CRC8 of all the others (R63). -/
def Obligations.EncreqBuildsTheRequestFrame : Prop :=
  ∀ (sender destinationId memoryAddress : Byte) (s : State), ∃ body : ByteSeq,
    body = s.cfg.marker :: sender :: s.cfg.reqLen :: (s.cfg.reqDisc ++ [destinationId, s.cfg.reqSep, memoryAddress]) ∧
    (body ++ [crc8 s.cfg body]).length = 7 + s.cfg.reqDiscLen ∧
    exec (.encreq sender.toNat destinationId.toNat memoryAddress.toNat) s =
      .next { s with answer := some { st := .ok, frame := some (body ++ [crc8 s.cfg body]) } }

/-- R108, R183 (decision D23), and fault entry R181 (decision D17): an operand that is no byte (log entry 6) raises `EncodeRangeError`;
there is no frame. -/
def Obligations.EncreqOutOfRangeRaises : Prop :=
  ∀ (sender destinationId memoryAddress : Nat) (s : State), 256 ≤ sender ∨ 256 ≤ destinationId ∨ 256 ≤ memoryAddress →
    exec (.encreq sender destinationId memoryAddress) s =
      .next { s with fault := if s.fault = 0 then 2 else s.fault, answer := some { st := .fault } }

/-- R124 (derived there), with R8 as its premise: what `ENCREQ` builds decodes, with and without its checksum byte, to a request with the
operands. -/
def Obligations.EncreqThenTrydecRoundTrip : Prop :=
  ∀ (sender destinationId memoryAddress : Byte) (s : State), s.cfg.reqLen.toNat = s.cfg.reqDiscLen + 3 →
    ∃ (f payload : ByteSeq) (consumed : BitVec 9),
      exec (.encreq sender.toNat destinationId.toNat memoryAddress.toNat) s =
        .next { s with answer := some { st := .ok, frame := some f } } ∧
      consumed.toNat = f.length - 1 ∧
      (∀ window, window = f ∨ window = f.take (f.length - 1) →
        exec (.trydec window) s = .next { s with
          answer := some { st := .decoded, cid := some sender, size := some s.cfg.reqLen, consumed := some consumed, payload := some payload } }) ∧
      exec (.request ⟨sender, s.cfg.reqLen, payload⟩) s = .next { s with
        answer := some { st := .ok, sender := some sender, destinationId := some destinationId, memoryAddress := some memoryAddress } }

/-! ## TRYDEC -/

/-- R112, R115 and table I1: the outcome and its results, for every window. (Invalid, and the empty and the short window:
decision D14; `consumed = 3`: D13; log entry 16.) -/
def Obligations.TrydecClassifiesEveryWindow : Prop :=
  ∀ s : State,
    exec (.trydec []) s = .next { s with answer := some { st := .incomplete } } ∧
    (∀ (b : Byte) (rest : ByteSeq), b ≠ s.cfg.marker →
      exec (.trydec (b :: rest)) s = .next { s with answer := some { st := .invalid } }) ∧
    (∀ rest : ByteSeq, rest.length < 2 →
      exec (.trydec (s.cfg.marker :: rest)) s = .next { s with answer := some { st := .incomplete } }) ∧
    (∀ (cid : Byte) (rest : ByteSeq),
      exec (.trydec (s.cfg.marker :: cid :: 0 :: rest)) s = .next { s with
        answer := some { st := .ignorable, cid := some cid, size := some 0, consumed := some 3 } }) ∧
    (∀ (cid size : Byte) (rest : ByteSeq), size ≠ 0 → rest.length < size.toNat →
      exec (.trydec (s.cfg.marker :: cid :: size :: rest)) s = .next { s with answer := some { st := .incomplete } }) ∧
    ∀ (cid size : Byte) (payload rest : ByteSeq), size ≠ 0 → payload.length = size.toNat →
      exec (.trydec (s.cfg.marker :: cid :: size :: (payload ++ rest))) s = .next { s with
        answer := some { st := .decoded, cid := some cid, size := some size, consumed := some (3 + size.zeroExtend 9), payload := some payload } }

/-- R114 (derived there): bytes added to the end of a window leave every outcome but Incomplete as it is, and never make an Incomplete
window that is not empty Invalid. -/
def Obligations.TrydecOutcomeStandsWhenBytesFollow : Prop :=
  ∀ (window more : ByteSeq) (s t u : State) (a b : Answer),
    exec (.trydec window) s = .next t → t.answer = some a → exec (.trydec (window ++ more)) s = .next u → u.answer = some b →
    (a.st ≠ .incomplete → b = a) ∧ (a.st = .incomplete → window ≠ [] → b.st ≠ .invalid)

/-! ## XMEAS -/

/-- R119, R67, R44 (two's complement and byte order: GK2, log entry 13), R120 (the integer itself, not divided by 10: D15, log entry 16), with
the premise of table P1 that the high byte stands behind the low one: Ok with the two bytes, the one at `MEAS_HI_IDX` above the other, read as a two's complement number, exactly when R66's test holds; else None. -/
def Obligations.XmeasReadsTheMeasurement : Prop :=
  ∀ (f : Frame) (s : State), s.cfg.measLoIdx < s.cfg.measHiIdx →
    (s.cfg.measDisc <+: f.payload → s.cfg.measHiIdx < f.payload.length →
      exec (.xmeas f) s = .next { s with
        answer := some { st := .ok, raw := some (f.payload.getD s.cfg.measHiIdx 0 ++ f.payload.getD s.cfg.measLoIdx 0).toInt } }) ∧
    (¬ (s.cfg.measDisc <+: f.payload ∧ s.cfg.measHiIdx < f.payload.length) →
      exec (.xmeas f) s = .next { s with answer := some { st := .none } })

/-- R121: the sentinel is returned like any other value. -/
def Obligations.XmeasKeepsTheSentinel : Prop :=
  ∀ (f : Frame) (s : State), s.cfg.measDisc <+: f.payload →
    f.payload[s.cfg.measHiIdx]? = some 0x7F → f.payload[s.cfg.measLoIdx]? = some 0xFF →
      exec (.xmeas f) s = .next { s with answer := some { st := .ok, raw := some 32767 } }

/-! ## FEED -/

/-- R131, R133 (refusing the whole read: D11), R180 and R181 (codes D18, fault entry D17; log entry 16): all of the bytes are appended, or the fault and none of them. -/
def Obligations.FeedAppendsAllOrRaises : Prop :=
  ∀ (rawBytes : ByteSeq) (s : State),
    ((∀ c, s.cfg.bufCap = some c → s.buf.length + rawBytes.length ≤ c) →
      exec (.feed rawBytes) s = .next { s with buf := s.buf ++ rawBytes, answer := some { st := .ok } }) ∧
    ∀ c, s.cfg.bufCap = some c → c < s.buf.length + rawBytes.length →
      exec (.feed rawBytes) s = .next { s with fault := if s.fault = 0 then 3 else s.fault, answer := some { st := .fault } }

/-- R132, in a state whose buffer is within its capacity (which every step keeps, R56). -/
def Obligations.FeedOfNoBytesChangesNothing : Prop :=
  ∀ s : State, s.withinCap → exec (.feed []) s = .next { s with answer := some { st := .ok } }

/-- R134 (derived there): two FEEDs that do not fault leave what one FEED of both would. -/
def Obligations.TwoFeedsAreOne : Prop :=
  ∀ (a b : ByteSeq) (s t u : State), exec (.feed a) s = .next t → t.answer = some { st := .ok } →
    exec (.feed b) t = .next u → u.answer = some { st := .ok } → exec (.feed (a ++ b)) s = .next u

/-- R22, R40, byte by byte: FEED stores its bytes from index `BUF_LEN` on and leaves every byte below; where it raises a fault it stores
none; no index above is valid. -/
def Obligations.FeedStoresAtTheEndOfBuf : Prop :=
  ∀ (rawBytes : ByteSeq) (s t : State) (a : Nat), exec (.feed rawBytes) s = .next t →
    (a < s.bufLen → t.readByte a = s.readByte a) ∧
    (s.bufLen ≤ a → t.answer = some { st := .ok } → t.readByte a = rawBytes[a - s.bufLen]?) ∧
    (t.answer ≠ some { st := .ok } → t.readByte a = s.readByte a)

/-! ## NEXTFRAME -/

/-- R137: with no marker in `BUF`, None, and every byte is kept. -/
def Obligations.NextframeWithoutMarkerKeepsBuf : Prop :=
  ∀ s : State, s.cfg.marker ∉ s.buf → exec .nextframe s = .next { s with answer := some { st := .none } }

/-- R141 (fewer than 3 bytes are Incomplete: D14): an incomplete frame at the first marker: None, and nothing is dropped, not the stray bytes either. -/
def Obligations.NextframeWaitsForAnIncompleteFrame : Prop :=
  ∀ (stray rest : ByteSeq) (s : State), s.cfg.marker ∉ stray → s.buf = stray ++ s.cfg.marker :: rest →
    (rest.length < 2 ∨ ∃ cid size tail, rest = cid :: size :: tail ∧ size ≠ 0 ∧ tail.length < size.toNat) →
      exec .nextframe s = .next { s with answer := some { st := .none } }

/-- R139 (the count 3: D13): an ignorable frame at the first marker: the stray bytes before it and its three bytes are dropped and the
scan goes on with what is left. -/
def Obligations.NextframeDropsAnIgnorableFrame : Prop :=
  ∀ (stray rest : ByteSeq) (cid : Byte) (s : State), s.cfg.marker ∉ stray → s.buf = stray ++ s.cfg.marker :: cid :: 0 :: rest →
    exec .nextframe s = exec .nextframe { s with buf := rest }

/-- R140: a complete frame at the first marker is returned, and the stray bytes before it and its own bytes are dropped. -/
def Obligations.NextframeReturnsACompleteFrame : Prop :=
  ∀ (stray payload rest : ByteSeq) (cid size : Byte) (s : State), s.cfg.marker ∉ stray → size ≠ 0 → payload.length = size.toNat →
    s.buf = stray ++ s.cfg.marker :: cid :: size :: (payload ++ rest) →
      exec .nextframe s = .next { s with
        buf := rest, answer := some { st := .decoded, cid := some cid, size := some size, payload := some payload } }

/-- R135, R143: on every state NEXTFRAME completes, answers Decoded with a Frame value or None, and changes `BUF` only, by dropping bytes
from its front; a frame returned takes at least its own bytes with it. -/
def Obligations.NextframeOnlyDropsFromTheFront : Prop :=
  ∀ s : State, ∃ n, n ≤ s.buf.length ∧
    (exec .nextframe s = .next { s with buf := s.buf.drop n, answer := some { st := .none } } ∨
     ∃ f : Frame, f.wf = true ∧ f.size ≠ 0 ∧ 3 + f.size.toNat ≤ n ∧
      exec .nextframe s = .next { s with
        buf := s.buf.drop n, answer := some { st := .decoded, cid := some f.cid, size := some f.size, payload := some f.payload } })

/-- R142 (derived there): after a None, another NEXTFRAME with no FEED between answers None again and changes nothing. -/
def Obligations.NextframeNoneTwice : Prop :=
  ∀ s t : State, exec .nextframe s = .next t → t.answer = some { st := .none } → exec .nextframe t = .next t

/-! ## DRAIN and the laws of the reassembler -/

/-- R145: DRAIN is NEXTFRAME until one answers None, and its frames are theirs, in order. (Its status is the last NEXTFRAME's, log entry
11.) -/
def Obligations.DrainIsNextframeUntilNone : Prop :=
  Instr.opCode .drain = none ∧ ∀ s : State, ∃ (k : Nat) (t : State) (answers : List Answer),
    runOps (List.replicate (k + 1) .nextframe) s = .next (t, answers ++ [{ st := .none }]) ∧
    answers.length = k ∧ (∀ a ∈ answers, a.st = .decoded) ∧
    exec .drain s = .next { t with answer := some { st := .none, frames := some (framesOf answers) } }

/-- R146 (derived there): each NEXTFRAME that answers Decoded takes at least 4 bytes; after DRAIN `BUF` holds no marker, or its first marker
heads an incomplete frame, and another NEXTFRAME answers None and changes nothing. -/
def Obligations.DrainLeavesNothingExtractable : Prop :=
  (∀ (k : Nat) (s t : State) (answers : List Answer), runOps (List.replicate k .nextframe) s = .next (t, answers) →
    (∀ a ∈ answers, a.st = .decoded) → t.buf.length + 4 * k ≤ s.buf.length) ∧
  ∀ s t : State, exec .drain s = .next t →
    exec .nextframe t = .next { t with answer := some { st := .none } } ∧
    (t.cfg.marker ∉ t.buf ∨ ∃ stray rest : ByteSeq, t.cfg.marker ∉ stray ∧ t.buf = stray ++ t.cfg.marker :: rest ∧
      (rest.length < 2 ∨ ∃ cid size tail, rest = cid :: size :: tail ∧ size ≠ 0 ∧ tail.length < size.toNat))

/-- R147, chunking invariance (derived there): two ways of cutting one stream into FEEDs, with any number of NEXTFRAMEs after each and a
DRAIN at the end, from an empty `BUF`, no FEED faulting: the frames returned and the final `BUF` are the same. -/
def Obligations.ChunkingDoesNotChangeTheFrames : Prop :=
  ∀ (chunks₁ chunks₂ : List (ByteSeq × Nat)) (s t₁ t₂ : State) (answers₁ answers₂ : List Answer),
    s.buf = [] → chunks₁.flatMap Prod.fst = chunks₂.flatMap Prod.fst →
    runOps (chunkedOps chunks₁) s = .next (t₁, answers₁) → (∀ a ∈ answers₁, a.st ≠ .fault) →
    runOps (chunkedOps chunks₂) s = .next (t₂, answers₂) → (∀ a ∈ answers₂, a.st ≠ .fault) →
      framesOf answers₁ = framesOf answers₂ ∧ t₁.buf = t₂.buf

/-- R148, R149 (derived there): frames back to back, some of them of size 0, then a fragment that is empty or a proper first part of a
frame: from an empty `BUF` with room for all of it, FEED and DRAIN return exactly the frames of size at least 1, in order, and leave the
fragment. -/
def Obligations.BackToBackFramesAreAllReturned : Prop :=
  ∀ (frames : List Frame) (last : Frame) (k : Nat) (stream : ByteSeq) (s : State),
    (∀ f ∈ frames, f.wf = true) → last.wf = true → last.size ≠ 0 → k < (frameBytes s.cfg last).length → s.buf = [] →
    stream = frames.flatMap (frameBytes s.cfg) ++ (frameBytes s.cfg last).take k →
    (∀ c, s.cfg.bufCap = some c → stream.length ≤ c) →
      ∃ (t : State) (answers : List Answer), runOps [.feed stream, .drain] s = .next (t, answers) ∧
        framesOf answers = frames.filter (fun f => f.size != 0) ∧ t.buf = (frameBytes s.cfg last).take k ∧ t.fault = s.fault

/-! ## The wire rows -/

/-- R60, R63, and the row's meaning of log entry 7: the bytes of a frame are recognised, with and without a right checksum byte. -/
def Obligations.FrameRowRecognisesTheLayout : Prop :=
  ∀ (f : Frame) (c : Byte) (s : State), f.wf = true →
    exec (.frame (frameBytes s.cfg f)) s = .next { s with
      answer := some { st := .ok, cid := some f.cid, size := some f.size, payload := some f.payload } } ∧
    (c = crc8 s.cfg (frameBytes s.cfg f) →
      exec (.frame (frameBytes s.cfg f ++ [c])) s = .next { s with
        answer := some { st := .ok, cid := some f.cid, size := some f.size, payload := some f.payload, crc := some c } }) ∧
    (c ≠ crc8 s.cfg (frameBytes s.cfg f) →
      exec (.frame (frameBytes s.cfg f ++ [c])) s = .next { s with answer := some { st := .none } })

/-- R60, R61, and the row's meaning of log entry 7: nothing else is recognised: bytes the row answers Ok for are a frame's, with or
without its checksum byte. -/
def Obligations.FrameRowRecognisesNothingElse : Prop :=
  ∀ (bytes : ByteSeq) (s t : State) (a : Answer), exec (.frame bytes) s = .next t → t.answer = some a →
    (a.st = .ok ∧ ∃ f : Frame, f.wf = true ∧ (bytes = frameBytes s.cfg f ∨
        bytes = frameBytes s.cfg f ++ [crc8 s.cfg (frameBytes s.cfg f)])) ∨ a = { st := .none }

/-- R65 (derived there) as the row's meaning (log entry 7), with R8 as its premise: a Frame value is recognised exactly when it is a
request, and its three fields are answered. -/
def Obligations.RequestRowIsTheRequestTest : Prop :=
  ∀ (f : Frame) (s : State), f.wf = true → s.cfg.reqLen.toNat = s.cfg.reqDiscLen + 3 →
    (∀ d m : Byte, f.size = s.cfg.reqLen → f.payload = s.cfg.reqDisc ++ [d, s.cfg.reqSep, m] →
      exec (.request f) s = .next { s with
        answer := some { st := .ok, sender := some f.cid, destinationId := some d, memoryAddress := some m } }) ∧
    ((¬ (f.size = s.cfg.reqLen ∧ ∃ d m : Byte, f.payload = s.cfg.reqDisc ++ [d, s.cfg.reqSep, m])) →
      exec (.request f) s = .next { s with answer := some { st := .none } })

/-- R66, R67 (two's complement: GK2) as the row's meaning (log entry 7): a Frame value is recognised exactly when it is a measurement, and
its raw value is answered. -/
def Obligations.MeasurementRowIsTheMeasurementTest : Prop :=
  ∀ (f : Frame) (s : State), s.cfg.measLoIdx < s.cfg.measHiIdx →
    (s.cfg.measDisc <+: f.payload → s.cfg.measHiIdx < f.payload.length →
      exec (.measurement f) s = .next { s with
        answer := some { st := .ok, raw := some (f.payload.getD s.cfg.measHiIdx 0 ++ f.payload.getD s.cfg.measLoIdx 0).toInt } }) ∧
    (¬ (s.cfg.measDisc <+: f.payload ∧ s.cfg.measHiIdx < f.payload.length) →
      exec (.measurement f) s = .next { s with answer := some { st := .none } })

/-! ## Faults, state and invariants -/

/-- R181 (decision D17), R189: an operation that answers Fault changes nothing but `FAULT`, which takes its one cause's code if it was 0;
which operations can, and on which operands. -/
def Obligations.FaultsArePreciseAndRecordTheFirstCause : Prop :=
  ∀ (i : Instr) (s t : State) (a : Answer), exec i s = .next t → t.answer = some a → a.st = .fault →
    ∃ c : Cause, t = { s with fault := if s.fault = 0 then c.code else s.fault, answer := some { st := .fault } } ∧
      ((c = .checksumComputeError ∧ ∃ data, i = .crc8 data ∧ ∃ n ∈ data, 256 ≤ n) ∨
       (c = .encodeRangeError ∧ ∃ x y z, i = .encreq x y z ∧ (256 ≤ x ∨ 256 ≤ y ∨ 256 ≤ z)) ∨
       (c = .bufferOverflow ∧ ∃ raw cap, i = .feed raw ∧ s.cfg.bufCap = some cap ∧ cap < s.buf.length + raw.length))

/-- R185: an operation that answers anything else records nothing. -/
def Obligations.OtherStatusesRecordNoFault : Prop :=
  ∀ (i : Instr) (s t : State) (a : Answer), exec i s = .next t → t.answer = some a → a.st ≠ .fault → t.fault = s.fault

/-- R25 (decision D17): once not zero, no operation changes `FAULT`, and no step. -/
def Obligations.FaultIsSticky : Prop :=
  (∀ (i : Instr) (s t : State), s.fault ≠ 0 → exec i s = .next t → t.fault = s.fault) ∧
  ∀ s t : State, s.fault ≠ 0 → step s = .next t → t.fault = s.fault

/-- R184 (decision D11): `BufferOverflow` is the only fault that can arise at the interface: a step that records a fault is a FEED whose
bytes do not fit, and `BUF_CAP` is finite. -/
def Obligations.OnlyOverflowArisesAtTheInterface : Prop :=
  ∀ s t : State, step s = .next t → s.fault = 0 → t.fault ≠ 0 →
    t.fault = Cause.bufferOverflow.code ∧
    ∃ (rawBytes rest : ByteSeq) (cap : Nat), decode s.request = .ok (.feed rawBytes, rest) ∧ s.cfg.bufCap = some cap ∧
      cap < s.buf.length + rawBytes.length

/-- R22, R24: bytes enter `BUF` only at the end and only by FEED, and leave it only from the front and only by NEXTFRAME, DRAIN and CLEAR.
-/
def Obligations.BufIsAFifo : Prop :=
  ∀ (i : Instr) (s t : State), exec i s = .next t → ∃ (n : Nat) (entered : ByteSeq),
    n ≤ s.buf.length ∧ t.buf = s.buf.drop n ++ entered ∧
    (entered ≠ [] → i = .feed entered) ∧ (n ≠ 0 → i = .nextframe ∨ i = .drain ∨ i = .clear) ∧ (i = .clear → t.buf = [])

/-- R24, R50: NOP, CRC8, ENCREQ, TRYDEC, XMEAS (and the wire rows) neither write `BUF` nor read it: in two states with the same constants
they answer the same. -/
def Obligations.PureOperationsNeitherReadNorWriteBuf : Prop :=
  ∀ (i : Instr) (s u t v : State), (∀ raw, i ≠ .feed raw) → i ≠ .nextframe → i ≠ .drain → i ≠ .clear → s.cfg = u.cfg →
    exec i s = .next t → exec i u = .next v → t.buf = s.buf ∧ t.answer = v.answer

/-- R27, R6: no operation and no step changes a constant (the field that carries them: log entry 2); and no operation changes the model's own
request port (log entry 4). -/
def Obligations.ConstantsNeverChange : Prop :=
  (∀ (i : Instr) (s t : State), exec i s = .next t → t.cfg = s.cfg ∧ t.request = s.request) ∧
  ∀ s t : State, step s = .next t → t.cfg = s.cfg

/-- The invariant of the block (R56; R180, codes by D18: codes 4 to 7 are never held; table I1 and R14: an answer, on the model's own port
(log entry 4), has only the results valid for its status, those of the wire rows and of DRAIN by log entries 7 and 11): every step keeps it,
from every state that has it. -/
def Obligations.StepKeepsTheInvariant : Prop :=
  ∀ s t : State, s.Inv → step s = .next t → t.Inv

/-- The invariant holds at reset. (What stands on the answer port at reset is the model's choice, log entry 4.) -/
def Obligations.ResetHasTheInvariant : Prop :=
  State.reset.Inv

/-! ## The host at the boundary -/

/-- R158: a sweep's destination ids are those from `ADDR_RANGE_START` to `ADDR_RANGE_END`, both included, each once, in increasing order
(the direction: D32). -/
def Obligations.SweepCoversTheRangeInOrder : Prop :=
  ∀ hp : HostParams,
    (∀ d : Byte, d ∈ sweepIds hp ↔ hp.addrRangeStart ≤ d ∧ d ≤ hp.addrRangeEnd) ∧ (sweepIds hp).Pairwise (· < ·) ∧
    (hp.addrRangeStart ≤ hp.addrRangeEnd → (sweepIds hp).length = hp.addrRangeEnd.toNat - hp.addrRangeStart.toNat + 1)

/-- R161, R162, table P2: the result list holds the raw value of every measurement frame, 32767 left out, once for each frame and in order. -/
def Obligations.CollectLeavesOutTheSentinel : Prop :=
  ∀ (p : Params) (frames more : List Frame) (f : Frame),
    collectRaws p (frames ++ more) = collectRaws p frames ++ collectRaws p more ∧ collectRaws p [] = [] ∧
    (∀ raw, rawMeasurement p f.payload = some raw → raw ≠ 32767 → collectRaws p [f] = [raw]) ∧
    (rawMeasurement p f.payload = some 32767 → collectRaws p [f] = []) ∧
    (rawMeasurement p f.payload = none → collectRaws p [f] = []) ∧
    ∀ raw : Int, raw ∈ collectRaws p frames ↔ raw ≠ 32767 ∧ ∃ g ∈ frames, rawMeasurement p g.payload = some raw

/-- R164 (bounds inclusive and the tie rule open: D30; tenths and the tie rule as an argument: log entry 10): the rounded mean is a nearest
tenth, on a tie the one the tie rule says; a list that is not empty is accepted with it exactly when it lies within the bounds, both
included. -/
def Obligations.AggregateIsTheNearestTenthWithinBounds : Prop :=
  ∀ (hp : HostParams) (tieUp : Int → Bool) (raws : List Int),
    (raws = [] → aggregate hp tieUp raws = none) ∧
    (raws ≠ [] → ∃ v : Int, 2 * (raws.sum - v * raws.length).natAbs ≤ raws.length ∧
      (∀ q : Int, 2 * (raws.sum - q * raws.length) = raws.length → v = if tieUp q = true then q + 1 else q) ∧
      (hp.plausibleMinTenths ≤ v ∧ v ≤ hp.plausibleMaxTenths → aggregate hp tieUp raws = some v) ∧
      (v < hp.plausibleMinTenths ∨ hp.plausibleMaxTenths < v → aggregate hp tieUp raws = none))

/-- R155, R156, R164, R166, as functions of the block's answers (log entry 10): on every state and whatever the line brings, a poll makes
attempts 0 to `n`, each from the state the one before it left; every attempt before the last has no accepted aggregate; the poll ends with
the last one's, a value within the bounds or Failure; and it ends in Failure only when the attempts are used up. (A read whose FEED
answers Fault is dropped and the attempt goes on: log entry 19.) -/
def Obligations.PollEndsWithTheFirstAcceptedAggregate : Prop :=
  ∀ (hp : HostParams) (tieUp : Int → Bool) (memoryAddress : Byte) (windows : Nat → List ByteSeq) (s : State),
    ∃ (n : Nat) (states : Nat → State) (answers : Nat → List Answer) (result : Option Int),
      n < max 1 hp.maxAttempts ∧ states 0 = s ∧
      (∀ k ≤ n, runOps (attemptOps hp memoryAddress (windows k)) (states k) = .next (states (k + 1), answers k)) ∧
      (∀ k < n, aggregate hp tieUp (collectRaws s.cfg (framesOf (answers k))) = none) ∧
      aggregate hp tieUp (collectRaws s.cfg (framesOf (answers n))) = result ∧
      poll hp tieUp memoryAddress windows s = .next (states (n + 1), result) ∧
      (∀ v, result = some v → hp.plausibleMinTenths ≤ v ∧ v ≤ hp.plausibleMaxTenths) ∧
      (result = none → n + 1 = max 1 hp.maxAttempts)

/-- R166, R168, R137, as functions of the block's answers (log entry 10): a poll in whose windows no marker arrives, begun with none in `BUF`,
ends in Failure. (Nothing is dropped while there is no marker, so with a finite `BUF_CAP` a FEED may come to answer Fault; that the poll then
goes on without that read, and so reaches Failure, is the model's choice, log entry 19: R161 has no branch for it and R187 calls the run
gone wrong.) -/
def Obligations.PollWithoutAMarkerFails : Prop :=
  ∀ (hp : HostParams) (tieUp : Int → Bool) (memoryAddress : Byte) (windows : Nat → List ByteSeq) (s : State),
    s.cfg.marker ∉ s.buf → (∀ k, ∀ r ∈ windows k, s.cfg.marker ∉ r) →
      ∃ t, poll hp tieUp memoryAddress windows s = .next (t, none)
end

