-- ==== Sys2Proof/Laws/Bytes.lean ====
section
/-! SUPPORT. What the notation of 00_scope.md R11 and R12 says, one lemma or two per function. -/

namespace Sys2Proof.Machine

/-- Bit `i` of `reflect8(b)` is `b[7 - i]` (R11). -/
theorem reflect8_bit (b : Byte) {i : Nat} (h : i < 8) : (reflect8 b).getLsbD i = b.getLsbD (7 - i) := by
  simp only [reflect8, BitVec.getLsbD_reverse, BitVec.getMsbD]
  simp [h]

theorem reflect8_reflect8 (b : Byte) : reflect8 (reflect8 b) = b := by
  simp only [reflect8, BitVec.reverse_reverse_eq]

theorem reflect8_xor (a b : Byte) : reflect8 (a ^^^ b) = reflect8 a ^^^ reflect8 b := by
  apply BitVec.eq_of_getLsbD_eq
  intro i hi
  rw [reflect8_bit _ hi, BitVec.getLsbD_xor, BitVec.getLsbD_xor, reflect8_bit _ hi, reflect8_bit _ hi]

/-- No marker, no index. -/
theorem firstIndex_eq_none {s : ByteSeq} {v : Byte} : firstIndex s v = none ↔ v ∉ s := by
  induction s with
  | nil => simp [firstIndex]
  | cons b bs ih =>
    by_cases h : b = v
    · simp [firstIndex, h]
    · simp [firstIndex, h, ih, Ne.symm h]

/-- The least index: what stands before it does not hold the value (R12). -/
theorem firstIndex_append {stray rest : ByteSeq} {v : Byte} (h : v ∉ stray) :
    firstIndex (stray ++ v :: rest) v = some stray.length := by
  induction stray with
  | nil => simp [firstIndex]
  | cons b bs ih =>
    simp only [List.mem_cons, not_or] at h
    simp [firstIndex, Ne.symm h.1, ih h.2]

/-- Every sequence either has no marker or splits at its first one. -/
theorem first_marker_cases (s : ByteSeq) (v : Byte) :
    v ∉ s ∨ ∃ stray rest, v ∉ stray ∧ s = stray ++ v :: rest := by
  by_cases h : v ∈ s
  · obtain ⟨stray, rest, hs, hn⟩ := List.eq_append_cons_of_mem h
    exact .inr ⟨stray, rest, hn, hs⟩
  · exact .inl h

/-- `starts_with` is the library's prefix relation (R12). -/
theorem startsWith_iff {s p : ByteSeq} : startsWith s p = true ↔ p <+: s := by
  simp only [startsWith, Bool.and_eq_true, decide_eq_true_eq, beq_iff_eq]
  rw [List.prefix_iff_eq_take]
  constructor
  · rintro ⟨_, h⟩; exact h.symm
  · intro h
    refine ⟨?_, h.symm⟩
    have := congrArg List.length h
    simp only [List.length_take] at this
    omega

/-- Bytes written as numbers come back. -/
theorem toBytes_toNat (bs : ByteSeq) : toBytes (bs.map BitVec.toNat) = some bs := by
  induction bs with
  | nil => rfl
  | cons b bs ih => simp [toBytes, ih, b.isLt]

/-- A number that is no byte is found. -/
theorem toBytes_eq_none {ns : List Nat} : toBytes ns = none ↔ ∃ n ∈ ns, 256 ≤ n := by
  induction ns with
  | nil => simp [toBytes]
  | cons n ns ih =>
    by_cases h : n < 256
    · simp [toBytes, h, ih]
    · simp [toBytes, h, Nat.le_of_not_lt h]

theorem firstOutOfRange_eq_none {x y z : Nat} :
    firstOutOfRange x y z = none ↔ x < 256 ∧ y < 256 ∧ z < 256 := by
  simp only [firstOutOfRange]
  split_ifs <;> simp <;> omega

/-- The slice behind three header bytes. -/
theorem slice_three (a b c : Byte) (payload rest : ByteSeq) :
    slice (a :: b :: c :: (payload ++ rest)) 3 (3 + payload.length) = payload := by
  simp [slice, Nat.add_comm 3, List.take_left']

end Sys2Proof.Machine
end

