-- ==== Sys2Proof/Laws/Codec.lean ====
section
/-! SUPPORT. Everything `TRYDEC`'s classification can answer, by the shape of the window (41_frame_codec.md R112). -/

namespace Sys2Proof.Machine

variable {m : Byte}

theorem tryDec_nil : tryDec m [] = .incomplete := rfl

theorem tryDec_invalid {b : Byte} (h : b ≠ m) (rest : ByteSeq) : tryDec m (b :: rest) = .invalid := by
  simp [tryDec, h]

theorem tryDec_short {rest : ByteSeq} (h : rest.length < 2) : tryDec m (m :: rest) = .incomplete := by
  match rest, h with
  | [], _ => simp [tryDec]
  | [_], _ => simp [tryDec]

theorem tryDec_ignorable (cid : Byte) (rest : ByteSeq) : tryDec m (m :: cid :: 0 :: rest) = .ignorable cid 3 := by
  simp [tryDec]

theorem tryDec_incomplete {cid size : Byte} {rest : ByteSeq} (hz : size ≠ 0) (h : rest.length < size.toNat) :
    tryDec m (m :: cid :: size :: rest) = .incomplete := by
  have : rest.length + 1 + 1 + 1 < 3 + size.toNat := by omega
  have hz' : ¬ size = 0#8 := hz
  simp [tryDec, hz', this]

theorem tryDec_decoded {cid size : Byte} {payload : ByteSeq} (rest : ByteSeq) (hz : size ≠ 0)
    (h : payload.length = size.toNat) :
    tryDec m (m :: cid :: size :: (payload ++ rest)) = .decoded cid size (3 + size.toNat) payload := by
  have hl : ¬ (payload.length + rest.length + 1 + 1 + 1 < 3 + size.toNat) := by omega
  have hs := slice_three m cid size payload rest
  rw [h] at hs
  have hz' : ¬ size = 0#8 := hz
  simp [tryDec, hz', hl, hs]

/-- The window that starts at a marker, case by case: what the scan can meet (R138). -/
theorem window_cases (rest : ByteSeq) :
    (rest.length < 2 ∨ ∃ cid size tail, rest = cid :: size :: tail ∧ size ≠ 0 ∧ tail.length < size.toNat) ∨
    (∃ cid tail, rest = cid :: (0 : Byte) :: tail) ∨
    ∃ (cid size : Byte) (payload tail : ByteSeq), rest = cid :: size :: (payload ++ tail) ∧ size ≠ 0 ∧
      payload.length = size.toNat := by
  match rest with
  | [] => exact .inl (.inl (by simp))
  | [_] => exact .inl (.inl (by simp))
  | cid :: size :: tail =>
    by_cases hz : size = 0
    · subst hz; exact .inr (.inl ⟨cid, tail, rfl⟩)
    · by_cases hl : tail.length < size.toNat
      · exact .inl (.inr ⟨cid, size, tail, rfl, hz, hl⟩)
      · refine .inr (.inr ⟨cid, size, tail.take size.toNat, tail.drop size.toNat, ?_, hz, ?_⟩)
        · simp
        · simp; omega

theorem tryDec_incomplete_of_case {rest : ByteSeq}
    (h : rest.length < 2 ∨ ∃ cid size tail, rest = cid :: size :: tail ∧ size ≠ 0 ∧ tail.length < size.toNat) :
    tryDec m (m :: rest) = .incomplete := by
  rcases h with h | ⟨cid, size, tail, rfl, hz, hl⟩
  · exact tryDec_short h
  · exact tryDec_incomplete hz hl

/-! The results' lengths and ranges. -/

/-- The length of a request frame (30_encoding.md R64). -/
theorem requestFrame_length (p : Params) (sender destinationId memoryAddress : Byte) :
    (requestFrame p sender destinationId memoryAddress).length = 7 + p.reqDiscLen := by
  simp [requestFrame, requestBody, Params.reqDiscLen]; omega

/-- A 16-bit value read as two's complement is a signed 16-bit number (00_scope.md R11). -/
theorem sext16_range {v : Nat} (h : v < 65536) : -32768 ≤ sext16 v ∧ sext16 v ≤ 32767 := by
  unfold sext16; split <;> omega

/-- A raw value is a signed 16-bit number (30_encoding.md R67). -/
theorem rawMeasurement_range {p : Params} {payload : ByteSeq} {raw : Int} (h : rawMeasurement p payload = some raw) :
    -32768 ≤ raw ∧ raw ≤ 32767 := by
  unfold rawMeasurement at h
  split at h
  · split at h
    · rename_i hi lo _ _
      cases h
      exact sext16_range (by have := hi.isLt; have := lo.isLt; omega)
    · cases h
  · cases h

end Sys2Proof.Machine
end

