-- ==== Sys2Proof/Laws/Decode.lean ====
section
/-! SUPPORT. A sequence operand with its end mark, there and back: the part of a transaction that has no fixed length. -/

namespace Sys2Proof

/-- What was written is read, whatever follows. -/
theorem takeSeq_encodeSeq (bs rest : ByteSeq) : takeSeq (encodeSeq bs ++ rest) = .ok (bs, rest) := by
  induction bs with
  | nil => cases rest <;> simp [encodeSeq, takeSeq]
  | cons b bs ih => simp [encodeSeq, takeSeq, ih]

/-- What was read had been written so. -/
theorem encodeSeq_of_takeSeq : ∀ {bs data rest : ByteSeq}, takeSeq bs = .ok (data, rest) → bs = encodeSeq data ++ rest
  | [], _, _, h => by simp [takeSeq] at h
  | [m], data, rest, h => by
    simp only [takeSeq] at h
    split_ifs at h with h0
    simp only [Except.ok.injEq, Prod.mk.injEq] at h
    rw [← h.1, ← h.2, h0]; rfl
  | m :: b :: bs, data, rest, h => by
    simp only [takeSeq] at h
    split_ifs at h with h0 h1
    · simp only [Except.ok.injEq, Prod.mk.injEq] at h
      rw [← h.1, ← h.2, h0]; rfl
    · cases hr : takeSeq bs with
      | error e => simp [hr] at h
      | ok p =>
        simp only [hr, Except.ok.injEq, Prod.mk.injEq] at h
        have ih := encodeSeq_of_takeSeq (data := p.1) (rest := p.2) (by rw [hr])
        rw [← h.1, ← h.2, h1, ih]; rfl

/-- A byte is its number written as a byte. -/
theorem ofNat_toNat_byte (b : Byte) : BitVec.ofNat 8 b.toNat = b := by simp

theorem map_toNat_ofNat {data : List Nat} (h : data.all isByte = true) :
    (data.map (BitVec.ofNat 8)).map BitVec.toNat = data := by
  induction data with
  | nil => rfl
  | cons n ns ih =>
    simp only [List.all_cons, Bool.and_eq_true, isByte, decide_eq_true_eq] at h
    simp only [List.map_cons, BitVec.toNat_ofNat]
    rw [ih (by simpa [isByte] using h.2), Nat.mod_eq_of_lt h.1]

theorem map_ofNat_toNat (data : ByteSeq) : (data.map BitVec.toNat).map (BitVec.ofNat 8) = data := by
  induction data with
  | nil => rfl
  | cons b bs ih => simp only [List.map_cons, ofNat_toNat_byte, ih]

theorem all_isByte_map_toNat (data : ByteSeq) : (data.map BitVec.toNat).all isByte = true := by
  simp only [List.all_eq_true, List.mem_map, isByte, decide_eq_true_eq, forall_exists_index, and_imp]
  rintro _ b - rfl
  exact b.isLt

end Sys2Proof
end

