-- ==== Sys2Proof/Laws/Memory.lean ====
section
/-! SUPPORT. `BUF` as cells has its canonical form whatever an operation leaves in it, and reads as `BUF` does. -/

namespace Sys2Proof.Machine

theorem Memory.wfFrom_cellsFrom (k : Nat) (buf : ByteSeq) : Memory.wfFrom k (Memory.cellsFrom k buf) = true := by
  induction buf generalizing k with
  | nil => rfl
  | cons b bs ih => simp [Memory.cellsFrom, Memory.wfFrom, ih]

/-- Every content of `BUF` has the canonical form. -/
theorem Memory.wf_cells (buf : ByteSeq) : Memory.wf (Memory.cells buf) = true := Memory.wfFrom_cellsFrom 0 buf

/-- `BufAppend` keeps the canonical form. -/
theorem Memory.wf_bufAppend (buf s : ByteSeq) : Memory.wf (Memory.cells (bufAppend buf s)) = true := Memory.wf_cells _

/-- `BufDrop` keeps the canonical form. -/
theorem Memory.wf_bufDrop {n : Nat} {buf buf' : ByteSeq} (_ : bufDrop n buf = .ok buf') :
    Memory.wf (Memory.cells buf') = true := Memory.wf_cells _

/-- The memory of the state after reset has it. -/
theorem Memory.wf_reset : Memory.wf (Memory.cells State.reset.buf) = true := Memory.wf_cells _

theorem Memory.read_cellsFrom (k a : Nat) (buf : ByteSeq) :
    Memory.read (Memory.cellsFrom k buf) a = if k ≤ a then buf[a - k]? else none := by
  induction buf generalizing k with
  | nil => simp [Memory.cellsFrom, Memory.read]
  | cons b bs ih =>
    simp only [Memory.cellsFrom, Memory.read, ih]
    rcases Nat.lt_trichotomy k a with h | h | h
    · have e : a - k = (a - (k + 1)) + 1 := by omega
      simp [Nat.ne_of_lt h, Nat.succ_le_of_lt h, Nat.le_of_lt h, e]
    · simp [h]
    · have h1 : ¬ k = a := by omega
      have h2 : ¬ k ≤ a := by omega
      have h3 : ¬ k + 1 ≤ a := by omega
      simp [h1, h2, h3]

/-- Reading the cells is reading `BUF`. -/
theorem Memory.read_cells (s : State) (a : Nat) : Memory.read (Memory.cells s.buf) a = s.readByte a := by
  simp [Memory.cells, Memory.read_cellsFrom, State.readByte]

/-- Everything `BufDrop` can do (R13). -/
theorem bufDrop_ok {n : Nat} {buf : ByteSeq} (h : n ≤ buf.length) : bufDrop n buf = .ok (buf.drop n) := by
  simp [bufDrop, h]

theorem bufDrop_ok_iff {n : Nat} {buf buf' : ByteSeq} :
    bufDrop n buf = .ok buf' ↔ n ≤ buf.length ∧ buf' = buf.drop n := by
  by_cases h : n ≤ buf.length <;> simp [bufDrop, h, eq_comm]

/-- `MemRead` is defined only inside `BUF` (R13). -/
theorem memRead_isSome {buf : ByteSeq} {addr n : Nat} : (memRead buf addr n).isSome ↔ addr + n ≤ buf.length := by
  by_cases h : addr + n ≤ buf.length <;> simp [memRead, h]

end Sys2Proof.Machine
end

