-- ==== Sys2Proof/Laws/State.lean ====
section
/-! SUPPORT. The fields of State under each update, each true by rfl. -/

namespace Sys2Proof.Machine

section
variable (s : State) (a : Answer) (b : ByteSeq) (c : Cause)

@[simp] theorem State.reply_buf : (s.reply a).buf = s.buf := rfl
@[simp] theorem State.reply_fault : (s.reply a).fault = s.fault := rfl
@[simp] theorem State.reply_cfg : (s.reply a).cfg = s.cfg := rfl
@[simp] theorem State.reply_request : (s.reply a).request = s.request := rfl
@[simp] theorem State.reply_answer : (s.reply a).answer = some a := rfl

@[simp] theorem State.setBuf_buf : (s.setBuf b).buf = b := rfl
@[simp] theorem State.setBuf_fault : (s.setBuf b).fault = s.fault := rfl
@[simp] theorem State.setBuf_cfg : (s.setBuf b).cfg = s.cfg := rfl
@[simp] theorem State.setBuf_request : (s.setBuf b).request = s.request := rfl
@[simp] theorem State.setBuf_answer : (s.setBuf b).answer = s.answer := rfl

@[simp] theorem State.setRequest_buf : (s.setRequest b).buf = s.buf := rfl
@[simp] theorem State.setRequest_fault : (s.setRequest b).fault = s.fault := rfl
@[simp] theorem State.setRequest_cfg : (s.setRequest b).cfg = s.cfg := rfl
@[simp] theorem State.setRequest_request : (s.setRequest b).request = b := rfl
@[simp] theorem State.setRequest_answer : (s.setRequest b).answer = s.answer := rfl

@[simp] theorem State.raise_buf : (s.raise c).buf = s.buf := rfl
@[simp] theorem State.raise_fault : (s.raise c).fault = recordFault s.fault c := rfl
@[simp] theorem State.raise_cfg : (s.raise c).cfg = s.cfg := rfl
@[simp] theorem State.raise_request : (s.raise c).request = s.request := rfl
@[simp] theorem State.raise_answer : (s.raise c).answer = some (Answer.ofStatus .fault) := rfl

@[simp] theorem State.setBuf_self : s.setBuf s.buf = s := rfl
@[simp] theorem Answer.ofStatus_st (st : Status) : (Answer.ofStatus st).st = st := rfl
end

/-- The cause's code is no 0, so a recorded fault shows (R180). -/
theorem Cause.code_ne_zero (c : Cause) : c.code ≠ 0 := by cases c <;> decide

/-- `FAULT` keeps the first cause (R25). -/
theorem recordFault_of_ne_zero {old : BitVec 3} (h : old ≠ 0) (c : Cause) : recordFault old c = old := if_neg h

end Sys2Proof.Machine
end

