-- ==== Sys2Proof/Laws/Reassembler.lean ====
section
/-! SUPPORT. The scan of `NEXTFRAME`: one lemma for each decision of 42_stream_reassembler.md R136, the bound of R142 that makes every
scan end, and what a scan leaves. -/

namespace Sys2Proof.Machine

variable {m : Byte}

/-! One iteration. -/

theorem scanStep_no_marker {buf : ByteSeq} (h : m ∉ buf) : scanStep m buf = .stop := by
  simp [scanStep, firstIndex_eq_none.mpr h]

theorem scanStep_incomplete {stray rest : ByteSeq} (hm : m ∉ stray)
    (h : rest.length < 2 ∨ ∃ cid size tail, rest = cid :: size :: tail ∧ size ≠ 0 ∧ tail.length < size.toNat) :
    scanStep m (stray ++ m :: rest) = .stop := by
  simp [scanStep, firstIndex_append hm, tryDec_incomplete_of_case h]

theorem scanStep_ignorable {stray : ByteSeq} (hm : m ∉ stray) (cid : Byte) (rest : ByteSeq) :
    scanStep m (stray ++ m :: cid :: 0 :: rest) = .skip (stray.length + 3) := by
  simp only [scanStep, firstIndex_append hm, List.drop_left, tryDec_ignorable]

theorem scanStep_decoded {stray payload : ByteSeq} {cid size : Byte} (rest : ByteSeq) (hm : m ∉ stray) (hz : size ≠ 0)
    (h : payload.length = size.toNat) :
    scanStep m (stray ++ m :: cid :: size :: (payload ++ rest)) =
      .emit (stray.length + (3 + size.toNat)) ⟨cid, size, payload⟩ := by
  simp [scanStep, firstIndex_append hm, tryDec_decoded rest hz h]

/-! The shapes of a buffer. -/

/-- A buffer on which an iteration returns None: no marker, or an incomplete frame at the first one (R137, R141). -/
def Blocked (m : Byte) (buf : ByteSeq) : Prop :=
  m ∉ buf ∨ ∃ stray rest, m ∉ stray ∧ buf = stray ++ m :: rest ∧
    (rest.length < 2 ∨ ∃ cid size tail, rest = cid :: size :: tail ∧ size ≠ 0 ∧ tail.length < size.toNat)

/-- Every buffer is blocked, or has an ignorable frame first, or a complete one. -/
theorem buf_cases (m : Byte) (buf : ByteSeq) :
    Blocked m buf ∨
    (∃ stray cid rest, m ∉ stray ∧ buf = stray ++ m :: cid :: (0 : Byte) :: rest) ∨
    ∃ (stray : ByteSeq) (cid size : Byte) (payload rest : ByteSeq), m ∉ stray ∧
      buf = stray ++ m :: cid :: size :: (payload ++ rest) ∧ size ≠ 0 ∧ payload.length = size.toNat := by
  rcases first_marker_cases buf m with h | ⟨stray, rest, hm, rfl⟩
  · exact .inl (.inl h)
  · rcases window_cases rest with h | ⟨cid, tail, rfl⟩ | ⟨cid, size, payload, tail, rfl, hz, hl⟩
    · exact .inl (.inr ⟨stray, rest, hm, rfl, h⟩)
    · exact .inr (.inl ⟨stray, cid, tail, hm, rfl⟩)
    · exact .inr (.inr ⟨stray, cid, size, payload, tail, hm, rfl, hz, hl⟩)

theorem scanStep_blocked {buf : ByteSeq} (h : Blocked m buf) : scanStep m buf = .stop := by
  rcases h with h | ⟨stray, rest, hm, rfl, h⟩
  · exact scanStep_no_marker h
  · exact scanStep_incomplete hm h

/-! The loop. -/

theorem scan_blocked {buf : ByteSeq} (h : Blocked m buf) (n : Nat) : scan m (n + 1) buf = .ok (buf, none) := by
  simp [scan, scanStep_blocked h]

theorem scan_ignorable {stray : ByteSeq} (hm : m ∉ stray) (cid : Byte) (rest : ByteSeq) (n : Nat) :
    scan m (n + 1) (stray ++ m :: cid :: 0 :: rest) = scan m n rest := by
  have hd : bufDrop (stray.length + 3) (stray ++ m :: cid :: 0 :: rest) = .ok rest := by
    rw [bufDrop_ok (by simp), List.drop_append]
    simp
  simp only [scan, scanStep_ignorable hm, hd]

theorem scan_decoded {stray payload : ByteSeq} {cid size : Byte} (rest : ByteSeq) (hm : m ∉ stray) (hz : size ≠ 0)
    (h : payload.length = size.toNat) (n : Nat) :
    scan m (n + 1) (stray ++ m :: cid :: size :: (payload ++ rest)) = .ok (rest, some ⟨cid, size, payload⟩) := by
  have hd : bufDrop (stray.length + (3 + size.toNat)) (stray ++ m :: cid :: size :: (payload ++ rest)) = .ok rest := by
    rw [bufDrop_ok (by simp; omega), List.drop_append, Nat.add_comm 3]
    simp [h]
  simp [scan, scanStep_decoded rest hm hz h, hd]

/-- Enough iterations are enough: the result does not depend on the bound (R142). -/
theorem scan_bound {buf : ByteSeq} {n : Nat} (h : buf.length / 3 + 1 ≤ n) : scan m n buf = scan m (scanBound buf) buf := by
  induction n using Nat.strong_induction_on generalizing buf with
  | _ n ih =>
    obtain ⟨k, rfl⟩ : ∃ k, n = k + 1 := ⟨n - 1, by omega⟩
    rcases buf_cases m buf with hb | ⟨stray, cid, rest, hm, rfl⟩ | ⟨stray, cid, size, payload, rest, hm, rfl, hz, hl⟩
    · rw [scan_blocked hb, scanBound, scan_blocked hb]
    · have hlen : (stray ++ m :: cid :: (0 : Byte) :: rest).length = stray.length + rest.length + 3 := by simp; omega
      rw [scan_ignorable hm, scanBound, scan_ignorable hm, hlen]
      rw [hlen] at h
      rw [ih k (by omega) (buf := rest) (by omega)]
      by_cases hk : (stray.length + rest.length + 3) / 3 < k + 1
      · rw [ih ((stray.length + rest.length + 3) / 3) hk (by omega)]
      · omega
    · rw [scan_decoded rest hm hz hl, scanBound, scan_decoded rest hm hz hl]

/-- One `NEXTFRAME`'s scan, with the bound of its own buffer. -/
def nextOf (m : Byte) (buf : ByteSeq) : Except Fault (ByteSeq × Option Frame) := scan m (scanBound buf) buf

theorem nextOf_blocked {buf : ByteSeq} (h : Blocked m buf) : nextOf m buf = .ok (buf, none) := scan_blocked h _

theorem nextOf_ignorable {stray : ByteSeq} (hm : m ∉ stray) (cid : Byte) (rest : ByteSeq) :
    nextOf m (stray ++ m :: cid :: 0 :: rest) = nextOf m rest := by
  have hlen : (stray ++ m :: cid :: (0 : Byte) :: rest).length = stray.length + rest.length + 3 := by simp; omega
  rw [nextOf, scanBound, scan_ignorable hm, hlen]
  exact scan_bound (by omega)

theorem nextOf_decoded {stray payload : ByteSeq} {cid size : Byte} (rest : ByteSeq) (hm : m ∉ stray) (hz : size ≠ 0)
    (h : payload.length = size.toNat) :
    nextOf m (stray ++ m :: cid :: size :: (payload ++ rest)) = .ok (rest, some ⟨cid, size, payload⟩) :=
  scan_decoded rest hm hz h _

/-- Everything a scan can do: it ends; it leaves a tail of the buffer; with None what it leaves is blocked; with a frame it has taken at least
that frame's bytes (R140 to R142). -/
theorem nextOf_spec (m : Byte) (buf : ByteSeq) :
    ∃ n, n ≤ buf.length ∧
      ((nextOf m buf = .ok (buf.drop n, none) ∧ Blocked m (buf.drop n)) ∨
       ∃ f : Frame, f.wf = true ∧ f.size ≠ 0 ∧ 3 + f.size.toNat ≤ n ∧ nextOf m buf = .ok (buf.drop n, some f)) := by
  induction hk : buf.length using Nat.strong_induction_on generalizing buf with
  | _ k ih =>
    subst hk
    rcases buf_cases m buf with hb | ⟨stray, cid, rest, hm, rfl⟩ | ⟨stray, cid, size, payload, rest, hm, rfl, hz, hl⟩
    · exact ⟨0, Nat.zero_le _, .inl ⟨nextOf_blocked hb, hb⟩⟩
    · have hlen : (stray ++ m :: cid :: (0 : Byte) :: rest).length = stray.length + rest.length + 3 := by simp; omega
      have hd : ∀ n, (stray ++ m :: cid :: (0 : Byte) :: rest).drop (stray.length + 3 + n) = rest.drop n := by
        intro n
        rw [Nat.add_assoc, List.drop_append]
        simp [Nat.add_comm 3]
      obtain ⟨n, hn, h⟩ := ih rest.length (by omega) rest rfl
      refine ⟨stray.length + 3 + n, by omega, ?_⟩
      rw [nextOf_ignorable hm, hd]
      rcases h with h | ⟨f, hf, hs, hb, h⟩
      · exact .inl h
      · exact .inr ⟨f, hf, hs, by omega, h⟩
    · refine ⟨stray.length + 3 + size.toNat, by simp; omega, .inr ⟨⟨cid, size, payload⟩, ?_, hz, ?_, ?_⟩⟩
      · simp [Frame.wf, hl]
      · simp only; omega
      · rw [nextOf_decoded rest hm hz hl]
        have : (stray ++ m :: cid :: size :: (payload ++ rest)).drop (stray.length + 3 + size.toNat) = rest := by
          rw [Nat.add_assoc, List.drop_append, Nat.add_comm 3]
          simp [hl]
        rw [this]

/-! The meanings. -/

/-- `NEXTFRAME` is its scan. -/
theorem execNextframe_of_nextOf {s : State} {b : ByteSeq} {f : Option Frame} (h : nextOf s.cfg.marker s.buf = .ok (b, f)) :
    execNextframe s = .next ((s.setBuf b).reply (frameAnswer f)) := by
  rw [nextOf] at h
  rw [execNextframe, h]

/-- On a blocked buffer `NEXTFRAME` answers None and changes nothing (R137, R141). -/
theorem execNextframe_blocked {s : State} (h : Blocked s.cfg.marker s.buf) :
    execNextframe s = .next (s.reply (frameAnswer none)) := execNextframe_of_nextOf (nextOf_blocked h)

/-- Everything `NEXTFRAME` can do. -/
theorem execNextframe_spec (s : State) :
    ∃ n, n ≤ s.buf.length ∧
      ((execNextframe s = .next ((s.setBuf (s.buf.drop n)).reply (frameAnswer none)) ∧ Blocked s.cfg.marker (s.buf.drop n)) ∨
       ∃ f : Frame, f.wf = true ∧ f.size ≠ 0 ∧ 3 + f.size.toNat ≤ n ∧
        execNextframe s = .next ((s.setBuf (s.buf.drop n)).reply (frameAnswer (some f)))) := by
  obtain ⟨n, hn, ⟨h, hb⟩ | ⟨f, hf, hz, hb, h⟩⟩ := nextOf_spec s.cfg.marker s.buf
  · exact ⟨n, hn, .inl ⟨execNextframe_of_nextOf h, hb⟩⟩
  · exact ⟨n, hn, .inr ⟨f, hf, hz, hb, execNextframe_of_nextOf h⟩⟩

@[simp] theorem frameValue_frameAnswer (f : Option Frame) : (frameAnswer f).frameValue = f := by
  cases f <;> rfl

/-- Everything the loop of `DRAIN` can do, where its bound is large enough (R146): it drops bytes from the front of the buffer until it is
blocked, and collects Frame values. -/
theorem drainLoop_spec (n : Nat) (s : State) (acc : List Frame) (h : s.buf.length / 3 + 1 ≤ n) :
    ∃ k fs, k ≤ s.buf.length ∧ (∀ f ∈ fs, f.wf = true ∧ f.size ≠ 0) ∧ Blocked s.cfg.marker (s.buf.drop k) ∧
      drainLoop n s acc = .next ((s.setBuf (s.buf.drop k)).reply { st := .none, frames := some (acc ++ fs) }) := by
  induction n generalizing s acc with
  | zero => omega
  | succ n ih =>
    obtain ⟨k, hk, ⟨e, hb⟩ | ⟨f, hf, hz, hb, e⟩⟩ := execNextframe_spec s
    · refine ⟨k, [], hk, by simp, hb, ?_⟩
      simp [drainLoop, e, State.reply]
    · obtain ⟨k', fs, hk', hfs, hb', e'⟩ :=
        ih ((s.setBuf (s.buf.drop k)).reply (frameAnswer (some f))) (acc ++ [f]) (by simp; omega)
      simp only [State.reply_buf, State.setBuf_buf, List.length_drop, List.drop_drop, State.reply_cfg, State.setBuf_cfg] at hk' hb' e'
      refine ⟨k + k', f :: fs, by omega, ?_, hb', ?_⟩
      · intro g hg
        rcases List.mem_cons.mp hg with rfl | hg
        · exact ⟨hf, hz⟩
        · exact hfs g hg
      · simp only [drainLoop, e, State.reply_answer, Option.bind_some, frameValue_frameAnswer, e']
        simp [State.reply, State.setBuf]

/-- Everything `DRAIN` can do (R145, R146). -/
theorem execDrain_spec (s : State) :
    ∃ k fs, k ≤ s.buf.length ∧ (∀ f ∈ fs, f.wf = true ∧ f.size ≠ 0) ∧ Blocked s.cfg.marker (s.buf.drop k) ∧
      execDrain s = .next ((s.setBuf (s.buf.drop k)).reply { st := .none, frames := some fs }) := by
  obtain ⟨k, fs, h⟩ := drainLoop_spec (s.bufLen / 3 + 1) s [] (Nat.le_refl _)
  exact ⟨k, fs, h⟩

theorem exceedsCap_eq_false {cap : Option Nat} {n : Nat} : exceedsCap cap n = false ↔ ∀ c, cap = some c → n ≤ c := by
  cases cap <;> simp [exceedsCap]

theorem exceedsCap_eq_true {cap : Option Nat} {n : Nat} : exceedsCap cap n = true ↔ ∃ c, cap = some c ∧ c < n := by
  cases cap <;> simp [exceedsCap]

/-- Everything `FEED` can do (R131, R133). -/
theorem execFeed_cases (rawBytes : ByteSeq) (s : State) :
    (exceedsCap s.cfg.bufCap (s.bufLen + rawBytes.length) = false ∧
      execFeed rawBytes s = .next ((s.setBuf (s.buf ++ rawBytes)).reply (Answer.ofStatus .ok))) ∨
    (exceedsCap s.cfg.bufCap (s.bufLen + rawBytes.length) = true ∧ execFeed rawBytes s = .next (s.raise .bufferOverflow)) := by
  cases h : exceedsCap s.cfg.bufCap (s.bufLen + rawBytes.length)
  · exact .inl ⟨rfl, by rw [execFeed, h]; rfl⟩
  · exact .inr ⟨rfl, by rw [execFeed, h]; rfl⟩

end Sys2Proof.Machine
end

