-- ==== Sys2Proof/Laws/Exec.lean ====
section
/-! SUPPORT. What an operation can do to the state, said once for all of them: the invariants are read off from it. -/

namespace Sys2Proof.Machine

/-- Operations that touch neither `BUF` nor, unless they raise a fault, anything but the answer (10_state.md R24). -/
def NotOfBuf (i : Instr) : Prop := (∀ raw, i ≠ .feed raw) ∧ i ≠ .nextframe ∧ i ≠ .drain ∧ i ≠ .clear

/-- Which operation raises which cause, and on which operands (60_exceptions.md R180, R189). -/
def Raises (i : Instr) (s : State) (c : Cause) : Prop :=
  (c = .checksumComputeError ∧ ∃ data, i = .crc8 data ∧ ∃ n ∈ data, 256 ≤ n) ∨
  (c = .encodeRangeError ∧ ∃ x y z, i = .encreq x y z ∧ (256 ≤ x ∨ 256 ≤ y ∨ 256 ≤ z)) ∨
  (c = .bufferOverflow ∧ ∃ raw, i = .feed raw ∧ exceedsCap s.cfg.bufCap (s.bufLen + raw.length) = true)

/-- A frame the row `FRAME` recognises has as many payload bytes as its size says. -/
theorem parseFrame_length {p : Params} {bytes : ByteSeq} {r : Frame × Option Byte} (h : parseFrame p bytes = some r) :
    r.1.payload.length = r.1.size.toNat := by
  unfold parseFrame at h
  split at h
  · split_ifs at h with h1 h2 h3
    · cases h; exact h2
    · split at h
      · split_ifs at h
        cases h
        simp [slice, h3]; omega
      · cases h
  · cases h

variable (p : Params)

theorem rawAnswer_wf (payload : ByteSeq) :
    (rawAnswer (rawMeasurement p payload)).st ≠ .fault ∧ (rawAnswer (rawMeasurement p payload)).wf p = true := by
  cases h : rawMeasurement p payload with
  | none => exact ⟨nofun, rfl⟩
  | some raw =>
    obtain ⟨h1, h2⟩ := rawMeasurement_range h
    exact ⟨nofun, by simp [rawAnswer, Answer.wf, Answer.ofStatus, h1, h2]⟩

theorem wireFrameAnswer_wf (bytes : ByteSeq) :
    (wireFrameAnswer (parseFrame p bytes)).st ≠ .fault ∧ (wireFrameAnswer (parseFrame p bytes)).wf p = true := by
  cases h : parseFrame p bytes with
  | none => exact ⟨nofun, rfl⟩
  | some r => exact ⟨nofun, by simp [wireFrameAnswer, Answer.wf, Answer.ofStatus, parseFrame_length h]⟩

theorem requestAnswer_wf (cid : Byte) (r : Option (Byte × Byte)) :
    (requestAnswer cid r).st ≠ .fault ∧ (requestAnswer cid r).wf p = true := by
  rcases r with _ | ⟨d, m⟩ <;> simp [requestAnswer, Answer.wf, Answer.ofStatus]

theorem encreqAnswer_wf (sender destinationId memoryAddress : Byte) :
    (Answer.wf p { st := .ok, frame := some (requestFrame p sender destinationId memoryAddress) }) = true := by
  simp [Answer.wf, Answer.ofStatus, requestFrame_length]

theorem decAnswer_wf (m : Byte) (window : ByteSeq) :
    (tryDec m window).answer.st ≠ .fault ∧ (tryDec m window).answer.wf p = true := by
  match window with
  | [] => rw [tryDec_nil]; exact ⟨nofun, rfl⟩
  | b :: rest =>
    by_cases hb : b = m
    · subst hb
      rcases window_cases rest with h | ⟨cid, tail, rfl⟩ | ⟨cid, size, payload, tail, rfl, hz, hl⟩
      · rw [tryDec_incomplete_of_case h]; exact ⟨nofun, rfl⟩
      · rw [tryDec_ignorable]
        simp [DecOutcome.answer, Answer.wf, Answer.ofStatus]
      · rw [tryDec_decoded tail hz hl]
        simp [DecOutcome.answer, Answer.wf, Answer.ofStatus, hl]
        exact hz
    · rw [tryDec_invalid hb]; exact ⟨nofun, rfl⟩

theorem frameAnswer_wf {f : Frame} (hf : f.wf = true) (hz : f.size ≠ 0) :
    (frameAnswer (some f)).st ≠ .fault ∧ (frameAnswer (some f)).wf p = true := by
  simp only [Frame.wf, beq_iff_eq] at hf
  refine ⟨nofun, ?_⟩
  simp [frameAnswer, Answer.wf, Answer.ofStatus, hf]
  exact hz

theorem framesAnswer_wf {fs : List Frame} (h : ∀ f ∈ fs, f.wf = true ∧ f.size ≠ 0) :
    (Answer.wf p { st := .none, frames := some fs }) = true := by
  simp only [Answer.wf, Answer.ofStatus, beq_self_eq_true, Bool.true_and, Option.getD_some, List.all_eq_true, Bool.and_eq_true,
    bne_iff_ne]
  exact h

/-- Everything an operation can do: it completes; and it answers and changes nothing else, or enters a fault, or appends its bytes, or
drops bytes from the front of `BUF`, or empties it. -/
theorem exec_effect (i : Instr) (s : State) :
    ∃ t, exec i s = .next t ∧
      ((NotOfBuf i ∧ ∃ a, t = s.reply a ∧ a.st ≠ .fault ∧ a.wf s.cfg = true) ∨
       (∃ c, Raises i s c ∧ t = s.raise c) ∨
       (∃ raw, i = .feed raw ∧ exceedsCap s.cfg.bufCap (s.bufLen + raw.length) = false ∧
         t = (s.setBuf (s.buf ++ raw)).reply (Answer.ofStatus .ok)) ∨
       (∃ n a, (i = .nextframe ∨ i = .drain) ∧ n ≤ s.buf.length ∧ t = (s.setBuf (s.buf.drop n)).reply a ∧ a.st ≠ .fault ∧
         a.wf s.cfg = true) ∨
       (i = .clear ∧ t = (s.setBuf []).reply (Answer.ofStatus .ok))) := by
  cases i with
  | nop => exact ⟨_, rfl, .inl ⟨by simp [NotOfBuf], _, rfl, by decide, rfl⟩⟩
  | crc8 data =>
    cases h : toBytes data with
    | none =>
      refine ⟨s.raise .checksumComputeError, by simp [exec, execCrc8, h], .inr (.inl ⟨_, .inl ⟨rfl, data, rfl, ?_⟩, rfl⟩)⟩
      exact toBytes_eq_none.mp h
    | some bs =>
      exact ⟨s.reply { st := .ok, crc := some (crc8 s.cfg bs) }, by simp only [exec, execCrc8, h],
        .inl ⟨by simp [NotOfBuf], _, rfl, by simp, by simp [Answer.wf, Answer.ofStatus]⟩⟩
  | encreq x y z =>
    cases h : firstOutOfRange x y z with
    | none =>
      exact ⟨s.reply { st := .ok, frame := some (requestFrame s.cfg (BitVec.ofNat 8 x) (BitVec.ofNat 8 y) (BitVec.ofNat 8 z)) },
        by simp only [exec, execEncreq, h], .inl ⟨by simp [NotOfBuf], _, rfl, by simp, encreqAnswer_wf _ _ _ _⟩⟩
    | some o =>
      refine ⟨s.raise .encodeRangeError, by simp [exec, execEncreq, h], .inr (.inl ⟨_, .inr (.inl ⟨rfl, x, y, z, rfl, ?_⟩), rfl⟩)⟩
      by_contra hc
      have : firstOutOfRange x y z = none := firstOutOfRange_eq_none.mpr (by omega)
      rw [this] at h; cases h
  | trydec window =>
    obtain ⟨h1, h2⟩ := decAnswer_wf s.cfg s.cfg.marker window
    exact ⟨_, rfl, .inl ⟨by simp [NotOfBuf], _, rfl, h1, h2⟩⟩
  | xmeas f =>
    obtain ⟨h1, h2⟩ := rawAnswer_wf s.cfg f.payload
    exact ⟨_, rfl, .inl ⟨by simp [NotOfBuf], _, rfl, h1, h2⟩⟩
  | feed raw =>
    rcases execFeed_cases raw s with ⟨h, e⟩ | ⟨h, e⟩
    · exact ⟨_, e, .inr (.inr (.inl ⟨raw, rfl, h, rfl⟩))⟩
    · exact ⟨_, e, .inr (.inl ⟨_, .inr (.inr ⟨rfl, raw, rfl, h⟩), rfl⟩)⟩
  | nextframe =>
    obtain ⟨n, hn, ⟨e, _⟩ | ⟨f, hf, hz, _, e⟩⟩ := execNextframe_spec s
    · exact ⟨_, e, .inr (.inr (.inr (.inl ⟨n, _, .inl rfl, hn, rfl, by decide, rfl⟩)))⟩
    · obtain ⟨h1, h2⟩ := frameAnswer_wf s.cfg hf hz
      exact ⟨_, e, .inr (.inr (.inr (.inl ⟨n, _, .inl rfl, hn, rfl, h1, h2⟩)))⟩
  | clear => exact ⟨_, rfl, .inr (.inr (.inr (.inr ⟨rfl, rfl⟩)))⟩
  | drain =>
    obtain ⟨n, fs, hn, hfs, _, e⟩ := execDrain_spec s
    exact ⟨_, e, .inr (.inr (.inr (.inl ⟨n, _, .inr rfl, hn, rfl, by simp, framesAnswer_wf s.cfg hfs⟩)))⟩
  | frame bytes =>
    obtain ⟨h1, h2⟩ := wireFrameAnswer_wf s.cfg bytes
    exact ⟨_, rfl, .inl ⟨by simp [NotOfBuf], _, rfl, h1, h2⟩⟩
  | request f =>
    obtain ⟨h1, h2⟩ := requestAnswer_wf s.cfg f.cid (requestFields s.cfg f)
    exact ⟨_, rfl, .inl ⟨by simp [NotOfBuf], _, rfl, h1, h2⟩⟩
  | measurement f =>
    obtain ⟨h1, h2⟩ := rawAnswer_wf s.cfg f.payload
    exact ⟨_, rfl, .inl ⟨by simp [NotOfBuf], _, rfl, h1, h2⟩⟩

/-- Everything a step can do: wait, run the operation at the front of the port, or refuse bytes that are no transaction. -/
theorem step_cases (s : State) :
    (s.request = [] ∧ step s = .next s) ∨
    (∃ i rest, decode s.request = .ok (i, rest) ∧ step s = exec i (s.setRequest rest)) ∨
    ∃ e, s.request ≠ [] ∧ decode s.request = .error e ∧ step s = .refused (.malformedRequest e) := by
  unfold step
  split
  · rename_i h; exact .inl ⟨h, rfl⟩
  · rename_i b bs h
    cases hd : decode s.request with
    | ok p => exact .inr (.inl ⟨p.1, p.2, rfl, rfl⟩)
    | error e => exact .inr (.inr ⟨e, by simp [h], rfl, rfl⟩)

end Sys2Proof.Machine
end

