-- ==== Sys2Proof/Laws/HostSide.lean ====
section
/-! SUPPORT. What a sequence of operations can do, and the rounding of the host's mean. -/

namespace Sys2Proof.Machine

/-- Every sequence of operations completes, under the same constants (70_reset_and_hazards.md R225, 10_state.md R27). -/
theorem runOps_completes (ops : List Instr) (s : State) : ∃ t answers, runOps ops s = .next (t, answers) ∧ t.cfg = s.cfg := by
  induction ops generalizing s with
  | nil => exact ⟨s, [], rfl, rfl⟩
  | cons i ops ih =>
    obtain ⟨s', e, h⟩ := exec_effect i s
    obtain ⟨t, answers, e', hc⟩ := ih s'
    refine ⟨t, s'.answer.toList ++ answers, by simp only [runOps, e, e'], hc.trans ?_⟩
    rcases h with ⟨_, _, rfl, _⟩ | ⟨_, _, rfl⟩ | ⟨_, _, _, rfl⟩ | ⟨_, _, _, _, rfl, _⟩ | ⟨_, rfl⟩ <;> rfl

/-- The rounded mean is at most half a tenth from the mean (45_host_poller.md R164). -/
theorem roundTenths_near (tieUp : Int → Bool) (sum : Int) {count : Nat} (h : 0 < count) :
    2 * (sum - roundTenths tieUp sum count * count).natAbs ≤ count := by
  have hd := Int.emod_add_mul_ediv sum count
  have h0 := Int.emod_nonneg sum (b := (count : Int)) (by omega)
  have h1 := Int.emod_lt_of_pos sum (b := (count : Int)) (by omega)
  rw [Int.mul_comm] at hd
  simp only [roundTenths]
  generalize sum / (count : Int) = q at *
  generalize sum % (count : Int) = r at *
  split_ifs <;> (try rw [Int.add_mul]) <;> omega

end Sys2Proof.Machine
end

