-- ==== Sys2Proof/Laws/PerInstr.lean ====
section
/-! SUPPORT. Families of lemmas with one lemma per operation. `OpCode`: an operation has an encoding exactly when it has an op code, and the
first byte of the encoding is that code (30_encoding.md R79, R81, R83, R84). -/

namespace Sys2Proof.Laws.OpCode

/-- The first byte of the encoding is the op code, and there is an encoding exactly when there is an op code. -/
def Statement (i : Instr) : Prop := (encode i).bind List.head? = i.opCode.map (BitVec.zeroExtend 8)

theorem nop : Statement .nop := rfl
theorem crc8 (data : List Nat) : Statement (.crc8 data) := rfl
theorem encreq (sender destinationId memoryAddress : Nat) : Statement (.encreq sender destinationId memoryAddress) := rfl
theorem trydec (window : ByteSeq) : Statement (.trydec window) := rfl
theorem xmeas (f : Frame) : Statement (.xmeas f) := rfl
theorem feed (rawBytes : ByteSeq) : Statement (.feed rawBytes) := rfl
theorem nextframe : Statement .nextframe := rfl
theorem clear : Statement .clear := rfl
theorem drain : Statement .drain := rfl
theorem frame (bytes : ByteSeq) : Statement (.frame bytes) := rfl
theorem request (f : Frame) : Statement (.request f) := rfl
theorem measurement (f : Frame) : Statement (.measurement f) := rfl

end Sys2Proof.Laws.OpCode
end

