-- ==== Sys2Proof/Tests/Slice0.lean ====
section
/-! SUPPORT. Tests. Expected values are those of spec/95_test_vectors.md (part V, derived there from the rules; S4, V8 the source's own
numbers), under its illustrative constants ILLUS-A, which are NOT the device's; and, for every statement of the package that has hypotheses,
a witness that meets them. -/

namespace Sys2Proof.Tests

open Sys2Proof.Machine

/-- ILLUS-A of 95_test_vectors.md. -/
def illusA : Params where
  marker := 0x7E
  crcPoly := 0x07
  crcInit := 0xFF
  crcXorOut := 0xFF
  reqLen := 0x05
  reqDisc := [0xD1, 0xD2]
  reqSep := 0x00
  measDisc := [0xE1, 0xE2]
  measLoIdx := 4
  measHiIdx := 5
  bufCap := none

/-- ILLUS-A with the capacity 16 of V7 and P5. -/
def cap16 : Params := { illusA with bufCap := some 16 }

/-- ILLUS-B's CRC parameters. -/
def illusB : Params := { illusA with crcPoly := 0x31, crcInit := 0xA5, crcXorOut := 0x5A }

/-- A state with these constants and this `BUF`. -/
def at_ (p : Params) (buf : ByteSeq) : State := { buf := buf, fault := 0, cfg := p, request := [], answer := none }

def f1 : ByteSeq := [0x7E, 0x20, 0x06, 0xE1, 0xE2, 0x0A, 0x00, 0xD2, 0x00]
def f2 : ByteSeq := [0x7E, 0x21, 0x06, 0xE1, 0xE2, 0x0A, 0x00, 0xD4, 0x00]
def f3 : ByteSeq := [0x7E, 0x22, 0x06, 0xE1, 0xE2, 0x0A, 0x00, 0xD0, 0x00]
def frame1 : Frame := ⟨0x20, 0x06, [0xE1, 0xE2, 0x0A, 0x00, 0xD2, 0x00]⟩
def frame2 : Frame := ⟨0x21, 0x06, [0xE1, 0xE2, 0x0A, 0x00, 0xD4, 0x00]⟩

def answerOf (o : Host.Outcome State Fault Refusal) : Option Answer :=
  match o with
  | .next t => t.answer
  | _ => none

def bufOf (o : Host.Outcome State Fault Refusal) : Option ByteSeq :=
  match o with
  | .next t => some t.buf
  | _ => none

def faultOf (o : Host.Outcome State Fault Refusal) : Option (BitVec 3) :=
  match o with
  | .next t => some t.fault
  | _ => none

def isNext (o : Host.Outcome State Fault Refusal) : Bool :=
  match o with
  | .next _ => true
  | _ => false

/-! ## Well-formedness: an ill-formed term for each check -/

theorem test_crc8_of_256_is_ill_formed : (Instr.crc8 [0, 255, 256]).wf = false := by decide
theorem test_encreq_sender_256_is_ill_formed : (Instr.encreq 256 0 0).wf = false := by decide
theorem test_encreq_destination_256_is_ill_formed : (Instr.encreq 0 256 0).wf = false := by decide
theorem test_encreq_address_256_is_ill_formed : (Instr.encreq 0 0 256).wf = false := by decide
theorem test_xmeas_wrong_size_is_ill_formed : (Instr.xmeas ⟨0x20, 3, [0xE1, 0xE2]⟩).wf = false := by decide
theorem test_request_wrong_size_is_ill_formed : (Instr.request ⟨0x20, 1, []⟩).wf = false := by decide
theorem test_measurement_wrong_size_is_ill_formed : (Instr.measurement ⟨0x20, 0, [0xE1]⟩).wf = false := by decide
theorem test_illusA_is_valid : illusA.valid = true ∧ illusB.valid = true := by decide

/-! ## Decoding: transactions written out from R81, R79 and log entry 3 -/

theorem test_decode_nop : decode [0b00000000] = .ok (.nop, []) := by decide
theorem test_decode_crc8 : decode [0b00000001, 1, 0xAB, 0] = .ok (.crc8 [0xAB], []) := by decide
theorem test_decode_encreq : decode [0b00000010, 0x10, 0x40, 0x0A, 0x06] = .ok (.encreq 0x10 0x40 0x0A, [0x06]) := by decide
theorem test_decode_trydec : decode [0b00000011, 1, 0x7E, 1, 0x00, 0] = .ok (.trydec [0x7E, 0x00], []) := by decide
theorem test_decode_xmeas : decode [0b00000100, 0x20, 1, 1, 0xE1, 0] = .ok (.xmeas ⟨0x20, 1, [0xE1]⟩, []) := by decide
theorem test_decode_feed : decode [0b00000101, 1, 0x01, 1, 0x00, 0, 7] = .ok (.feed [0x01, 0x00], [7]) := by decide
theorem test_decode_nextframe : decode [0b00000110] = .ok (.nextframe, []) := by decide
theorem test_decode_clear : decode [0b00000111] = .ok (.clear, []) := by decide
theorem test_decode_refuses_by_name :
    decode [0b00001000] = .error .opCodeTooWide ∧ decode [5, 2, 0] = .error .badSequenceMark ∧
    decode [2, 0x10, 0x40] = .error .truncated ∧ decode [4, 0x20, 2, 1, 0xE1, 0] = .error .frameSizeMismatch := by decide

/-- Every op row of the table: its word decodes to its operation. -/
theorem test_table_words :
    (List.range 8).map (decodeTableWord 8) =
      [some .nop, some (.crc8 []), some (.encreq 0 0 0), some (.trydec []), some (.xmeas ⟨0, 0, []⟩), some (.feed []),
       some .nextframe, some .clear] := by decide

/-- Every op row of the table runs as the first operation after reset, and takes the whole request with it. -/
theorem test_table_words_run_after_reset :
    ((List.range 8).map fun w => isNext (step (State.reset.withFetchWord 8 w))) = List.replicate 8 true := by decide

/-! ## The operations -/

theorem test_nop : bufOf (exec .nop (at_ illusA f1)) = some f1 ∧ answerOf (exec .nop (at_ illusA f1)) = some { st := .ok } := by decide

set_option maxRecDepth 10000 in
/-- V1, CRC-8/ROHC over "123456789". -/
theorem test_crc8_rohc :
    crc8 { illusA with crcXorOut := 0 } [0x31, 0x32, 0x33, 0x34, 0x35, 0x36, 0x37, 0x38, 0x39] = 0xD0 := by decide

set_option maxRecDepth 10000 in
/-- V2: `01 02` and `02 01` under ILLUS-A, the nine ASCII digits under ILLUS-B. -/
theorem test_crc8_vectors :
    answerOf (exec (.crc8 [0x01, 0x02]) (at_ illusA [])) = some { st := .ok, crc := some 0x9A } ∧
    answerOf (exec (.crc8 [0x02, 0x01]) (at_ illusA [])) = some { st := .ok, crc := some 0x5F } ∧
    crc8 illusB [0x31, 0x32, 0x33, 0x34, 0x35, 0x36, 0x37, 0x38, 0x39] = 0x3D := by decide

set_option maxRecDepth 10000 in
/-- V3 line 6: the checksum equals the marker. -/
theorem test_encreq_frame :
    answerOf (exec (.encreq 0x10 0x40 0x12) (at_ illusA [])) =
      some { st := .ok, frame := some [0x7E, 0x10, 0x05, 0xD1, 0xD2, 0x40, 0x00, 0x12, 0x7E] } := by decide

/-- V3, a model with unbounded operands: `ENCREQ 10, 100, 0A -> Fault`, no frame, `FAULT = 2`. -/
theorem test_encreq_fault :
    answerOf (exec (.encreq 0x10 0x100 0x0A) (at_ illusA [])) = some { st := .fault } ∧
    faultOf (exec (.encreq 0x10 0x100 0x0A) (at_ illusA [])) = some 2 := by decide

/-- V4 line 8. -/
theorem test_trydec_decoded :
    answerOf (exec (.trydec [0x7E, 0x10, 0x02, 0xAA, 0xBB, 0xCC, 0x7E]) (at_ illusA [])) =
      some { st := .decoded, cid := some 0x10, size := some 0x02, consumed := some 5, payload := some [0xAA, 0xBB] } := by decide

/-- V4 lines 3, 5, 6 and 16. -/
theorem test_trydec_others :
    answerOf (exec (.trydec [0x7E, 0x10]) (at_ illusA [])) = some { st := .incomplete } ∧
    answerOf (exec (.trydec [0x7E, 0x10, 0x00, 0xAA]) (at_ illusA [])) =
      some { st := .ignorable, cid := some 0x10, size := some 0, consumed := some 3 } ∧
    answerOf (exec (.trydec [0x7E, 0x10, 0x02, 0xAA]) (at_ illusA [])) = some { st := .incomplete } ∧
    answerOf (exec (.trydec [0x55]) (at_ illusA [])) = some { st := .invalid } := by decide

set_option maxRecDepth 10000 in
/-- V5 lines 3 and 4: negative values. -/
theorem test_xmeas_negative :
    answerOf (exec (.xmeas ⟨0x20, 6, [0xE1, 0xE2, 0x11, 0x22, 0x38, 0xFF]⟩) (at_ illusA [])) = some { st := .ok, raw := some (-200) } ∧
    answerOf (exec (.xmeas ⟨0x20, 6, [0xE1, 0xE2, 0x00, 0x00, 0x00, 0x80]⟩) (at_ illusA [])) = some { st := .ok, raw := some (-32768) } := by
  decide

/-- V5 lines 10 and 11. -/
theorem test_xmeas_none :
    answerOf (exec (.xmeas ⟨0x20, 5, [0xE1, 0xE2, 0x00, 0x00, 0xD2]⟩) (at_ illusA [])) = some { st := .none } ∧
    answerOf (exec (.xmeas ⟨0x20, 6, [0xE1, 0xE3, 0x00, 0x00, 0xD2, 0x00]⟩) (at_ illusA [])) = some { st := .none } := by decide

/-- V7 line 4: exactly full. -/
theorem test_feed_to_the_brim :
    bufOf (exec (.feed [1, 2, 3, 4, 5, 6, 7]) (at_ cap16 f1)) = some (f1 ++ [1, 2, 3, 4, 5, 6, 7]) ∧
    faultOf (exec (.feed [1, 2, 3, 4, 5, 6, 7]) (at_ cap16 f1)) = some 0 := by decide

/-- V7 line 2: overflow. -/
theorem test_feed_overflow :
    bufOf (exec (.feed f2) (at_ cap16 f1)) = some f1 ∧ faultOf (exec (.feed f2) (at_ cap16 f1)) = some 3 ∧
    answerOf (exec (.feed f2) (at_ cap16 f1)) = some { st := .fault } := by decide

/-- P3 step 2: stray bytes and an ignorable frame go with the frame returned. -/
theorem test_nextframe_p3 :
    bufOf (exec .nextframe (at_ illusA ([0x01, 0x02, 0x7E, 0x33, 0x00] ++ f1 ++ [0x99, 0x7E, 0x21, 0x06, 0xE1, 0xE2]))) =
      some [0x99, 0x7E, 0x21, 0x06, 0xE1, 0xE2] ∧
    (answerOf (exec .nextframe (at_ illusA ([0x01, 0x02, 0x7E, 0x33, 0x00] ++ f1 ++ [0x99, 0x7E, 0x21, 0x06, 0xE1, 0xE2])))).bind
      Answer.frameValue = some frame1 := by decide

/-- V6 lines 13, 15 and 16: an ignorable frame alone, one whose cid equals the marker, a false frame start. -/
theorem test_nextframe_markers :
    bufOf (exec .nextframe (at_ illusA [0x7E, 0x33, 0x00])) = some [] ∧
    bufOf (exec .nextframe (at_ illusA ([0x7E, 0x7E, 0x00] ++ f1))) = some [] ∧
    bufOf (exec .nextframe (at_ illusA (0x7E :: f1))) = some (0x7E :: f1) := by decide

/-- V6 line 8: the fragment stays. -/
theorem test_drain_leaves_the_fragment :
    answerOf (exec .drain (at_ illusA (f1 ++ f2 ++ [0x7E, 0x22, 0x06, 0xE1]))) =
      some { st := .none, frames := some [frame1, frame2] } ∧
    bufOf (exec .drain (at_ illusA (f1 ++ f2 ++ [0x7E, 0x22, 0x06, 0xE1]))) = some [0x7E, 0x22, 0x06, 0xE1] := by decide

/-- V7 line 6: CLEAR keeps `FAULT`. -/
theorem test_clear :
    bufOf (exec .clear { at_ cap16 f1 with fault := 3 }) = some [] ∧ faultOf (exec .clear { at_ cap16 f1 with fault := 3 }) = some 3 := by
  decide

set_option maxRecDepth 10000 in
/-- R60, R63: the frame of V3 line 1 with its checksum byte, and with a wrong one. -/
theorem test_frame_row :
    answerOf (exec (.frame [0x7E, 0x10, 0x05, 0xD1, 0xD2, 0x40, 0x00, 0x0A, 0x6C]) (at_ illusA [])) =
      some { st := .ok, cid := some 0x10, size := some 5, payload := some [0xD1, 0xD2, 0x40, 0x00, 0x0A], crc := some 0x6C } ∧
    answerOf (exec (.frame [0x7E, 0x10, 0x05, 0xD1, 0xD2, 0x40, 0x00, 0x0A, 0x6D]) (at_ illusA [])) = some { st := .none } := by decide

/-- R65 on the frame of V4 line 11, and on a measurement. -/
theorem test_request_row :
    answerOf (exec (.request ⟨0x10, 5, [0xD1, 0xD2, 0x40, 0x00, 0x0A]⟩) (at_ illusA [])) =
      some { st := .ok, sender := some 0x10, destinationId := some 0x40, memoryAddress := some 0x0A } ∧
    answerOf (exec (.request frame1) (at_ illusA [])) = some { st := .none } := by decide

set_option maxRecDepth 10000 in
/-- R66 on the frame of V4 line 11, and on a measurement (V5 line 9's value). -/
theorem test_measurement_row :
    answerOf (exec (.measurement ⟨0x22, 6, [0xE1, 0xE2, 0x0A, 0x00, 0xD0, 0x00]⟩) (at_ illusA [])) = some { st := .ok, raw := some 208 } ∧
    answerOf (exec (.measurement ⟨0x10, 5, [0xD1, 0xD2, 0x40, 0x00, 0x0A]⟩) (at_ illusA [])) = some { st := .none } := by decide

/-- A step takes one transaction from the port and leaves the next. -/
theorem test_step_takes_one_transaction :
    (match step { at_ illusA [] with request := [5, 1, 0x7E, 0, 6] } with
     | .next t => some (t.buf, t.request)
     | _ => none) = some ([0x7E], [6]) := by decide

/-! ## The host -/

/-- The host parameters of V8. -/
def hostV8 : HostParams where
  senderId := 0x10
  addrRangeStart := 0x40
  addrRangeEnd := 0x41
  interPacketDelayMs := 250
  collectionWindowMs := 2500
  maxAttempts := 3
  plausibleMinTenths := -400
  plausibleMaxTenths := 1000
  readMaxBytes := 100
  readTimeoutMs := 0
  clearBetweenAttempts := false

/-- V8 lines 1, 3, 6, 7 and 9. -/
theorem test_aggregate :
    aggregate hostV8 (fun _ => true) [210, 212, 208] = some 210 ∧ aggregate hostV8 (fun _ => true) [] = none ∧
    aggregate hostV8 (fun _ => true) [1001] = none ∧ aggregate hostV8 (fun _ => true) [-400] = some (-400) ∧
    aggregate hostV8 (fun _ => true) [210, 211] = some 211 ∧ aggregate hostV8 (fun _ => false) [210, 211] = some 210 := by decide

/-- R168: a window that yields 210, 32767, 212 has the list [210, 212] and the value 21.1. -/
theorem test_collect_leaves_out_the_sentinel :
    collectRaws illusA [frame1, ⟨0x20, 6, [0xE1, 0xE2, 0, 0, 0xFF, 0x7F]⟩, frame2] = [210, 212] ∧
    aggregate hostV8 (fun _ => true) [210, 212] = some 211 := by decide

/-- R156: the window of the third attempt still counts, that of a fourth does not. -/
theorem test_poll_attempts :
    (match poll hostV8 (fun _ => true) 0x0A (fun k => if k = 2 then [f1] else []) (at_ illusA []) with
     | .next (_, r) => r
     | _ => none) = some 210 ∧
    (match poll hostV8 (fun _ => true) 0x0A (fun k => if k = 3 then [f1] else []) (at_ illusA []) with
     | .next (_, r) => r.isNone
     | _ => false) = true := ⟨rfl, rfl⟩

/-- Table I1: a result that is not valid for the status is caught. -/
theorem test_answers_that_are_ill_formed :
    Answer.wf illusA { st := .ok, raw := some 32768 } = false ∧ Answer.wf illusA { st := .ok, cid := some 1 } = false ∧
    Answer.wf illusA { st := .ok, crc := some 1, raw := some 1 } = false ∧
    Answer.wf illusA { st := .decoded, cid := some 1, size := some 1, payload := some [2], sender := some 3 } = false := by decide

/-- R167 with the range 0x40 to 0x7F: 55.5 s. -/
theorem test_poll_bound : pollBoundMs { hostV8 with addrRangeEnd := 0x7F } = 55500 := by decide

set_option maxRecDepth 10000 in
/-- P1: the two frames of the sweep. -/
theorem test_sweep :
    (match runOps (sweepOps hostV8 0x0A) (at_ illusA []) with
     | .next (_, answers) => answers.filterMap Answer.frame
     | _ => []) =
      [[0x7E, 0x10, 0x05, 0xD1, 0xD2, 0x40, 0x00, 0x0A, 0x6C], [0x7E, 0x10, 0x05, 0xD1, 0xD2, 0x41, 0x00, 0x0A, 0xBC]] := by decide

/-- S5, with the reads of P2: the poll ends with 21.0. -/
theorem test_poll :
    (match poll hostV8 (fun _ => true) 0x0A (fun _ => [(f1 ++ f2 ++ f3).take 5, ((f1 ++ f2 ++ f3).take 12).drop 5, (f1 ++ f2 ++ f3).drop 12])
        (at_ illusA []) with
     | .next (_, r) => r
     | _ => none) = some 210 := by decide

/-! ## Witnesses: concrete states and operands that meet the hypotheses of a statement, clause by clause, at the boundary -/

theorem witness_EncodedOperationDecodesToItself :
    (Instr.encreq 255 0 255).wf = true ∧ (Instr.encreq 255 0 255).opCode.isSome = true ∧
    (Instr.xmeas ⟨0x20, 1, [0xE1]⟩).wf = true ∧ (Instr.xmeas ⟨0x20, 1, [0xE1]⟩).opCode.isSome = true := by decide

theorem witness_DecodedBytesAreTheEncoding :
    decode [4, 0xFF, 1, 1, 0xE1, 0, 6] = .ok (.xmeas ⟨0xFF, 1, [0xE1]⟩, [6]) := by decide

theorem witness_StepRunsTheDecodedOperation :
    decode ({ at_ illusA f1 with request := [5, 0, 6] } : State).request = .ok (.feed [], [6]) := by decide

theorem witness_StepWaitsForATransaction : (at_ illusA f1).request = [] := rfl

theorem witness_StepStopsOnlyOnMalformedBytes :
    step { at_ illusA f1 with request := [8] } = .refused (.malformedRequest .opCodeTooWide) := rfl

theorem witness_Crc8SeesOneChangedByte : illusA.crcPoly.getLsbD 0 = true ∧ (0x00 : Byte) ≠ 0x80 := by decide

theorem witness_Crc8OfNoByteRaises : ∃ n ∈ [255, 256], 256 ≤ n := by decide

/-- One operand each just out of range, the others the largest bytes. -/
theorem witness_EncreqOutOfRangeRaises :
    (256 ≤ 256 ∨ 256 ≤ 255 ∨ 256 ≤ 255) ∧ (256 ≤ 255 ∨ 256 ≤ 256 ∨ 256 ≤ 255) ∧ (256 ≤ 255 ∨ 256 ≤ 255 ∨ 256 ≤ 256) := by decide

theorem witness_EncreqThenTrydecRoundTrip : (at_ illusA []).cfg.reqLen.toNat = (at_ illusA []).cfg.reqDiscLen + 3 := rfl

/-- The clauses of the classification: another first byte; 2 bytes; size 0 is by form; size 255 with 254 bytes, and with 255. -/
theorem witness_TrydecClassifiesEveryWindow :
    (0x7F : Byte) ≠ illusA.marker ∧ ([0x10] : ByteSeq).length < 2 ∧
    ((255 : Byte) ≠ 0 ∧ (List.replicate 254 (0xAA : Byte)).length < (255 : Byte).toNat) ∧
    ((255 : Byte) ≠ 0 ∧ (List.replicate 255 (0xAA : Byte)).length = (255 : Byte).toNat) := by
  refine ⟨by decide, by decide, ⟨by decide, ?_⟩, by decide, ?_⟩ <;> rw [List.length_replicate] <;> decide

theorem witness_TrydecOutcomeStandsWhenBytesFollow :
    (∃ t u a b, exec (.trydec [0x7E, 0x33, 0x00]) (at_ illusA []) = .next t ∧ t.answer = some a ∧
      exec (.trydec ([0x7E, 0x33, 0x00] ++ [0x55])) (at_ illusA []) = .next u ∧ u.answer = some b ∧ a.st ≠ .incomplete) ∧
    ∃ t u a b, exec (.trydec [0x7E]) (at_ illusA []) = .next t ∧ t.answer = some a ∧
      exec (.trydec ([0x7E] ++ [0x33, 0x00])) (at_ illusA []) = .next u ∧ u.answer = some b ∧ a.st = .incomplete :=
  ⟨⟨_, _, _, _, rfl, rfl, rfl, rfl, by decide⟩, _, _, _, _, rfl, rfl, rfl, rfl, rfl⟩

/-- A payload of `MEAS_HI_IDX + 1` bytes; one byte less; another discriminator. -/
theorem witness_XmeasReadsTheMeasurement :
    illusA.measLoIdx < illusA.measHiIdx ∧
    (illusA.measDisc <+: frame1.payload ∧ illusA.measHiIdx < frame1.payload.length) ∧
    ¬ (illusA.measDisc <+: frame1.payload.take 5 ∧ illusA.measHiIdx < (frame1.payload.take 5).length) ∧
    ¬ (illusA.measDisc <+: [0xE1, 0xE3, 0, 0, 0, 0]) := by decide

theorem witness_XmeasKeepsTheSentinel :
    illusA.measDisc <+: ([0xE1, 0xE2, 0, 0, 0xFF, 0x7F] : ByteSeq) ∧
    ([0xE1, 0xE2, 0, 0, 0xFF, 0x7F] : ByteSeq)[illusA.measHiIdx]? = some 0x7F ∧
    ([0xE1, 0xE2, 0, 0, 0xFF, 0x7F] : ByteSeq)[illusA.measLoIdx]? = some 0xFF := by decide

/-- 9 bytes held and a capacity of 16: 7 more fit, 8 do not. -/
theorem witness_FeedAppendsAllOrRaises :
    (∀ c, (at_ cap16 f1).cfg.bufCap = some c → (at_ cap16 f1).buf.length + (f2.take 7).length ≤ c) ∧
    (at_ cap16 f1).cfg.bufCap = some 16 ∧ 16 < (at_ cap16 f1).buf.length + (f2.take 8).length :=
  ⟨fun c h => by cases h; decide, rfl, by decide⟩

theorem witness_FeedOfNoBytesChangesNothing : (at_ cap16 (f1 ++ f2.take 7)).withinCap := rfl

theorem witness_TwoFeedsAreOne :
    ∃ t u, exec (.feed [1]) (at_ cap16 f1) = .next t ∧ t.answer = some { st := .ok } ∧
      exec (.feed [2, 3, 4, 5, 6, 7]) t = .next u ∧ u.answer = some { st := .ok } := ⟨_, _, rfl, rfl, rfl, rfl⟩

/-- A byte below `BUF_LEN`, the first and the last one stored, and a FEED that raises a fault. -/
theorem witness_FeedStoresAtTheEndOfBuf :
    (∃ t, exec (.feed (f2.take 7)) (at_ cap16 f1) = .next t ∧ t.answer = some { st := .ok } ∧ 8 < (at_ cap16 f1).bufLen ∧
      (at_ cap16 f1).bufLen ≤ 9 ∧ t.readByte 9 = some 0x7E ∧ t.readByte 15 = some 0x00 ∧ t.readByte 16 = none) ∧
    ∃ t, exec (.feed (f2.take 8)) (at_ cap16 f1) = .next t ∧ t.answer ≠ some { st := .ok } :=
  ⟨⟨_, rfl, rfl, by decide, by decide, rfl, rfl, rfl⟩, _, rfl, by decide⟩

theorem witness_NextframeWithoutMarkerKeepsBuf :
    (at_ illusA [0x55, 0x7F]).cfg.marker ∉ (at_ illusA [0x55, 0x7F]).buf := by decide

/-- Marker and cid only; size 1 and no payload byte. -/
theorem witness_NextframeWaitsForAnIncompleteFrame :
    illusA.marker ∉ ([0x55] : ByteSeq) ∧ (at_ illusA [0x55, 0x7E, 0x10]).buf = [0x55] ++ illusA.marker :: [0x10] ∧
    ([0x10] : ByteSeq).length < 2 ∧ (at_ illusA [0x55, 0x7E, 0x10, 1]).buf = [0x55] ++ illusA.marker :: [0x10, 1] ∧
    (1 : Byte) ≠ 0 ∧ ([] : ByteSeq).length < (1 : Byte).toNat := by decide

/-- A cid that equals the marker (V6 line 15). -/
theorem witness_NextframeDropsAnIgnorableFrame :
    illusA.marker ∉ ([] : ByteSeq) ∧ (at_ illusA (0x7E :: 0x7E :: 0 :: f1)).buf = [] ++ illusA.marker :: 0x7E :: 0 :: f1 := by decide

theorem witness_NextframeReturnsACompleteFrame :
    illusA.marker ∉ ([0x55] : ByteSeq) ∧ (1 : Byte) ≠ 0 ∧ ([0x7E] : ByteSeq).length = (1 : Byte).toNat ∧
    (at_ illusA [0x55, 0x7E, 0x10, 1, 0x7E, 0x99]).buf = [0x55] ++ illusA.marker :: 0x10 :: 1 :: ([0x7E] ++ [0x99]) := by decide

theorem witness_NextframeNoneTwice :
    ∃ t, exec .nextframe (at_ illusA [0x7E, 0x33, 0x00, 0x55]) = .next t ∧ t.answer = some { st := .none } := ⟨_, rfl, rfl⟩

/-- Two frames and a fragment. -/
theorem witness_DrainLeavesNothingExtractable :
    (∃ t a, runOps (List.replicate 2 .nextframe) (at_ illusA (f1 ++ f2 ++ [0x7E])) = .next (t, a) ∧ ∀ x ∈ a, x.st = .decoded) ∧
    ∃ t, exec .drain (at_ illusA (f1 ++ f2 ++ [0x7E])) = .next t :=
  ⟨⟨_, _, rfl, by decide⟩, _, rfl⟩

/-- One frame whole, and in two pieces with a NEXTFRAME after each. -/
theorem witness_ChunkingDoesNotChangeTheFrames :
    (at_ illusA []).buf = [] ∧ [(f1, 0)].flatMap Prod.fst = [(f1.take 4, 1), (f1.drop 4, 2)].flatMap Prod.fst ∧
    (∃ t a, runOps (chunkedOps [(f1, 0)]) (at_ illusA []) = .next (t, a) ∧ (∀ x ∈ a, x.st ≠ .fault) ∧ framesOf a = [frame1]) ∧
    ∃ t a, runOps (chunkedOps [(f1.take 4, 1), (f1.drop 4, 2)]) (at_ illusA []) = .next (t, a) ∧ (∀ x ∈ a, x.st ≠ .fault) ∧
      framesOf a = [frame1] :=
  ⟨rfl, rfl, ⟨_, _, rfl, by decide, rfl⟩, _, _, rfl, by decide, rfl⟩

/-- Two frames with one of size 0 between them, then all of a frame but its last byte, into a buffer it fills exactly. -/
theorem witness_BackToBackFramesAreAllReturned :
    (∀ f ∈ [frame1, ⟨0x33, 0, []⟩, frame2], f.wf = true) ∧ frame1.wf = true ∧ frame1.size ≠ 0 ∧
    8 < (frameBytes illusA frame1).length ∧
    ([frame1, ⟨0x33, 0, []⟩, frame2].flatMap (frameBytes illusA) ++ (frameBytes illusA frame1).take 8).length = 29 ∧
    (at_ { illusA with bufCap := some 29 } []).buf = [] := by decide

theorem witness_FrameRowRecognisesTheLayout :
    frame1.wf = true ∧ (⟨0x33, 0, []⟩ : Frame).wf = true ∧ (0x00 : Byte) ≠ crc8 illusA [0x7E, 0x33, 0x00] := by
  refine ⟨by decide, by decide, ?_⟩
  set_option maxRecDepth 10000 in decide

theorem witness_FrameRowRecognisesNothingElse :
    (∃ t a, exec (.frame f1) (at_ illusA []) = .next t ∧ t.answer = some a ∧ a.st = .ok) ∧
    ∃ t a, exec (.frame f1.tail) (at_ illusA []) = .next t ∧ t.answer = some a ∧ a = { st := .none } :=
  ⟨⟨_, _, rfl, rfl, rfl⟩, _, _, rfl, rfl, rfl⟩

/-- A request; the same with another separator. -/
theorem witness_RequestRowIsTheRequestTest :
    (⟨0x10, 5, [0xD1, 0xD2, 0x40, 0x00, 0x0A]⟩ : Frame).wf = true ∧ illusA.reqLen.toNat = illusA.reqDiscLen + 3 ∧
    (5 : Byte) = illusA.reqLen ∧ ([0xD1, 0xD2, 0x40, 0x00, 0x0A] : ByteSeq) = illusA.reqDisc ++ [0x40, illusA.reqSep, 0x0A] ∧
    ¬ ∃ d m : Byte, ([0xD1, 0xD2, 0x40, 0x01, 0x0A] : ByteSeq) = illusA.reqDisc ++ [d, illusA.reqSep, m] := by
  refine ⟨by decide, by decide, by decide, by decide, ?_⟩
  rintro ⟨d, m, h⟩
  simp [illusA] at h

theorem witness_MeasurementRowIsTheMeasurementTest :
    illusA.measLoIdx < illusA.measHiIdx ∧ illusA.measDisc <+: frame2.payload ∧ illusA.measHiIdx < frame2.payload.length ∧
    ¬ (illusA.measDisc <+: frame2.payload.tail ∧ illusA.measHiIdx < frame2.payload.tail.length) := by decide

/-- Each of the three causes. -/
theorem witness_FaultsArePreciseAndRecordTheFirstCause :
    (∃ t a, exec (.crc8 [0, 256]) (at_ illusA []) = .next t ∧ t.answer = some a ∧ a.st = .fault) ∧
    (∃ t a, exec (.encreq 0 256 0) (at_ illusA []) = .next t ∧ t.answer = some a ∧ a.st = .fault) ∧
    ∃ t a, exec (.feed (f2.take 8)) (at_ cap16 f1) = .next t ∧ t.answer = some a ∧ a.st = .fault :=
  ⟨⟨_, _, rfl, rfl, rfl⟩, ⟨_, _, rfl, rfl, rfl⟩, _, _, rfl, rfl, rfl⟩

theorem witness_OtherStatusesRecordNoFault :
    ∃ t a, exec (.trydec [0x55]) { at_ illusA f1 with fault := 3 } = .next t ∧ t.answer = some a ∧ a.st ≠ .fault :=
  ⟨_, _, rfl, rfl, by decide⟩

theorem witness_FaultIsSticky :
    (∃ t, ({ at_ illusA [] with fault := 3 } : State).fault ≠ 0 ∧ exec (.crc8 [256]) { at_ illusA [] with fault := 3 } = .next t) ∧
    ∃ t, step { at_ illusA [] with fault := 3, request := [7] } = .next t :=
  ⟨⟨_, by decide, rfl⟩, _, rfl⟩

theorem witness_OnlyOverflowArisesAtTheInterface :
    ∃ t, step { at_ cap16 (f1 ++ f2.take 7) with request := [5, 1, 0xAA, 0] } = .next t ∧
      (at_ cap16 (f1 ++ f2.take 7)).fault = 0 ∧ t.fault ≠ 0 := ⟨_, rfl, rfl, by decide⟩

theorem witness_BufIsAFifo :
    (∃ t, exec (.feed [1]) (at_ illusA f1) = .next t ∧ t.buf = f1 ++ [1]) ∧
    (∃ t, exec .nextframe (at_ illusA (f1 ++ [1])) = .next t ∧ t.buf = [1]) ∧ ∃ t, exec .clear (at_ illusA f1) = .next t :=
  ⟨⟨_, rfl, rfl⟩, ⟨_, rfl, rfl⟩, _, rfl⟩

theorem witness_PureOperationsNeitherReadNorWriteBuf :
    (∀ raw, Instr.trydec f1 ≠ .feed raw) ∧ Instr.trydec f1 ≠ .nextframe ∧ Instr.trydec f1 ≠ .drain ∧ Instr.trydec f1 ≠ .clear ∧
    (at_ illusA []).cfg = (at_ illusA f2).cfg ∧ (∃ t, exec (.trydec f1) (at_ illusA []) = .next t) ∧
    ∃ t, exec (.trydec f1) (at_ illusA f2) = .next t :=
  ⟨nofun, nofun, nofun, nofun, rfl, ⟨_, rfl⟩, _, rfl⟩

theorem witness_ConstantsNeverChange :
    (∃ t, exec .drain (at_ illusA f1) = .next t) ∧ ∃ t, step { at_ illusA f1 with request := [6] } = .next t := ⟨⟨_, rfl⟩, _, rfl⟩

/-- A full buffer, a fault recorded, a Decoded answer on the interface. -/
theorem witness_StepKeepsTheInvariant :
    ∃ s t : State, s = { at_ cap16 (f1 ++ f2.take 7) with
        fault := 3, request := [6], answer := some { st := .decoded, cid := some 1, size := some 1, payload := some [2] } } ∧
      s.Inv ∧ step s = .next t :=
  ⟨_, _, rfl, ⟨rfl, .inr ⟨.bufferOverflow, rfl⟩, fun a h => by cases h; rfl⟩, rfl⟩

/-- A range of one destination, and of all 256. -/
theorem witness_SweepCoversTheRangeInOrder :
    (0x40 : Byte) ≤ 0x40 ∧ sweepIds { hostV8 with addrRangeEnd := 0x40 } = [0x40] ∧ (0x00 : Byte) ≤ 0xFF := by decide

/-- One frame each: a measurement, the sentinel, no measurement. -/
theorem witness_CollectLeavesOutTheSentinel :
    rawMeasurement illusA frame1.payload = some 210 ∧ rawMeasurement illusA [0xE1, 0xE2, 0, 0, 0xFF, 0x7F] = some 32767 ∧
    rawMeasurement illusA [] = none := by decide

/-- Values at the two bounds and just beyond one; a tie. -/
theorem witness_AggregateIsTheNearestTenthWithinBounds :
    aggregate hostV8 (fun _ => true) [1000] = some 1000 ∧ aggregate hostV8 (fun _ => true) [-400] = some (-400) ∧
    aggregate hostV8 (fun _ => true) [1001] = none ∧ 2 * (([210, 211] : List Int).sum - 210 * ([210, 211] : List Int).length) = 2 := by
  decide

/-- A window with a measurement ends the poll; without one all three attempts are made. -/
theorem witness_PollEndsWithTheFirstAcceptedAggregate :
    (∃ t, poll hostV8 (fun _ => true) 0x0A (fun k => if k = 1 then [f1] else []) (at_ illusA []) = .next (t, some 210)) ∧
    ∃ t, poll hostV8 (fun _ => true) 0x0A (fun _ => []) (at_ illusA []) = .next (t, none) := ⟨⟨_, rfl⟩, _, rfl⟩

theorem witness_PollWithoutAMarkerFails :
    illusA.marker ∉ (at_ illusA [0x55]).buf ∧ ∀ _ : Nat, ∀ r ∈ ([[0x55], [], [0x10, 0x06]] : List ByteSeq), illusA.marker ∉ r :=
  ⟨by decide, fun _ => by decide⟩

end Sys2Proof.Tests
end

section
/-! The inversion of `exec` and of `step`, in the form the invariants use: from "it went on to `t`" to what `t` is. -/

namespace Sys2Proof.Machine

variable {i : Instr} {s t : State}

/-- `exec_effect`'s alternatives with names: the states an operation can go on to from `s`. -/
inductive ExecEffect (i : Instr) (s : State) : State → Prop where
  /-- It answers and changes nothing else. -/
  | answers (a : Answer) (hi : NotOfBuf i) (hst : a.st ≠ .fault) (hwf : a.wf s.cfg = true) : ExecEffect i s (s.reply a)
  /-- It enters a fault (60_exceptions.md R181). -/
  | raises (c : Cause) (hc : Raises i s c) : ExecEffect i s (s.raise c)
  /-- It appends its bytes to `BUF` (42_stream_reassembler.md R131). -/
  | appends (raw : ByteSeq) (hi : i = .feed raw) (hcap : exceedsCap s.cfg.bufCap (s.bufLen + raw.length) = false) :
      ExecEffect i s ((s.setBuf (s.buf ++ raw)).reply (Answer.ofStatus .ok))
  /-- It drops bytes from the front of `BUF` (R143, R145). -/
  | drops (n : Nat) (a : Answer) (hi : i = .nextframe ∨ i = .drain) (hn : n ≤ s.buf.length) (hst : a.st ≠ .fault)
      (hwf : a.wf s.cfg = true) : ExecEffect i s ((s.setBuf (s.buf.drop n)).reply a)
  /-- It empties `BUF` (R150). -/
  | empties (hi : i = .clear) : ExecEffect i s ((s.setBuf []).reply (Answer.ofStatus .ok))

theorem execEffect_of_exec (h : exec i s = .next t) : ExecEffect i s t := by
  obtain ⟨t', e, hcases⟩ := exec_effect i s
  obtain rfl : t = t' := Host.Outcome.next.inj (h.symm.trans e)
  rcases hcases with ⟨hi, a, rfl, hst, hwf⟩ | ⟨c, hc, rfl⟩ | ⟨raw, hi, hcap, rfl⟩ | ⟨n, a, hi, hn, rfl, hst, hwf⟩ | ⟨hi, rfl⟩
  · exact .answers a hi hst hwf
  · exact .raises c hc
  · exact .appends raw hi hcap
  · exact .drops n a hi hn hst hwf
  · exact .empties hi

/-- A step that goes on has waited, or has run the operation at the front of the request port. -/
theorem step_next_cases (h : step s = .next t) :
    t = s ∨ ∃ i rest, decode s.request = .ok (i, rest) ∧ exec i (s.setRequest rest) = .next t := by
  obtain ⟨-, e⟩ | ⟨i, rest, hd, e⟩ | ⟨_, -, -, e⟩ := step_cases s
  · exact .inl (Host.Outcome.next.inj (h.symm.trans e))
  · exact .inr ⟨i, rest, hd, e.symm.trans h⟩
  · cases h.symm.trans e

theorem step_of_request_nil (h : s.request = []) : step s = .next s := by
  simp only [step, h]

/-- No operation writes the constants (10_state.md R27). -/
theorem exec_cfg (h : exec i s = .next t) : t.cfg = s.cfg := by
  cases execEffect_of_exec h <;> rfl

/-- No operation takes or presents a transaction: only `step` does. -/
theorem exec_request (h : exec i s = .next t) : t.request = s.request := by
  cases execEffect_of_exec h <;> rfl

theorem step_cfg (h : step s = .next t) : t.cfg = s.cfg := by
  obtain rfl | ⟨i, rest, -, he⟩ := step_next_cases h
  · rfl
  · exact exec_cfg (s := s.setRequest rest) he

/-- Only fault entry writes `FAULT`, and it keeps a code that is there (10_state.md R25). -/
theorem exec_fault_sticky (hs : s.fault ≠ 0) (h : exec i s = .next t) : t.fault = s.fault := by
  cases execEffect_of_exec h with
  | raises c => exact recordFault_of_ne_zero hs c
  | answers | appends | drops | empties => rfl

theorem step_fault_sticky (hs : s.fault ≠ 0) (h : step s = .next t) : t.fault = s.fault := by
  obtain rfl | ⟨i, rest, -, he⟩ := step_next_cases h
  · rfl
  · exact exec_fault_sticky (s := s.setRequest rest) hs he

theorem exec_clear_buf (h : exec .clear s = .next t) : t.buf = [] :=
  Host.Outcome.next.inj h ▸ rfl

/-- What an operation that is none of `BUF`'s does is fixed by the constants: one answer for every state that has them, or one cause
(10_state.md R24). -/
theorem exec_of_notOfBuf (hi : NotOfBuf i) (p : Params) :
    (∃ a, ∀ s : State, s.cfg = p → exec i s = .next (s.reply a)) ∨ ∃ c, ∀ s : State, exec i s = .next (s.raise c) := by
  obtain ⟨hfeed, hnext, hdrain, hclear⟩ := hi
  cases i with
  | nop => exact .inl ⟨_, fun _ _ => rfl⟩
  | crc8 data =>
    cases hb : toBytes data with
    | none => exact .inr ⟨.checksumComputeError, fun s => by simp only [exec, execCrc8, hb]⟩
    | some bs => exact .inl ⟨{ st := .ok, crc := some (crc8 p bs) }, fun s hs => by simp only [exec, execCrc8, hb, hs]⟩
  | encreq x y z =>
    cases ho : firstOutOfRange x y z with
    | none =>
      exact .inl ⟨{ st := .ok, frame := some (requestFrame p (BitVec.ofNat 8 x) (BitVec.ofNat 8 y) (BitVec.ofNat 8 z)) },
        fun s hs => by simp only [exec, execEncreq, ho, hs]⟩
    | some o => exact .inr ⟨.encodeRangeError, fun s => by simp only [exec, execEncreq, ho]⟩
  | trydec window => exact .inl ⟨(tryDec p.marker window).answer, fun _ hs => hs ▸ rfl⟩
  | xmeas f => exact .inl ⟨rawAnswer (rawMeasurement p f.payload), fun _ hs => hs ▸ rfl⟩
  | feed raw => exact absurd rfl (hfeed raw)
  | nextframe => exact absurd rfl hnext
  | clear => exact absurd rfl hclear
  | drain => exact absurd rfl hdrain
  | frame bytes => exact .inl ⟨wireFrameAnswer (parseFrame p bytes), fun _ hs => hs ▸ rfl⟩
  | request f => exact .inl ⟨requestAnswer f.cid (requestFields p f), fun _ hs => hs ▸ rfl⟩
  | measurement f => exact .inl ⟨rawAnswer (rawMeasurement p f.payload), fun _ hs => hs ▸ rfl⟩

/-! Reading `BUF` by index (20_memory.md R40). -/

theorem readByte_append_below (raw : ByteSeq) {a : Nat} (ha : a < s.bufLen) : (s.setBuf (s.buf ++ raw)).readByte a = s.readByte a :=
  List.getElem?_append_left ha

theorem readByte_append_above (raw : ByteSeq) {a : Nat} (ha : s.bufLen ≤ a) :
    (s.setBuf (s.buf ++ raw)).readByte a = raw[a - s.bufLen]? :=
  List.getElem?_append_right ha

theorem readByte_raise (s : State) (c : Cause) (a : Nat) : (s.raise c).readByte a = s.readByte a := rfl

end Sys2Proof.Machine
end

section
/-! The statements about the state (10_state.md). -/

namespace Sys2Proof.Machine

/-- Settles O31, by the two outcomes of FEED. -/
theorem feedStoresAtTheEndOfBuf : Obligations.FeedStoresAtTheEndOfBuf := by
  intro raw s t a h
  obtain ⟨-, e⟩ | ⟨-, e⟩ := execFeed_cases raw s
  · obtain rfl := Host.Outcome.next.inj (h.symm.trans e)
    exact ⟨readByte_append_below raw, fun ha _ => readByte_append_above raw ha, fun hok => absurd rfl hok⟩
  · obtain rfl := Host.Outcome.next.inj (h.symm.trans e)
    exact ⟨fun _ => readByte_raise s _ a, fun _ hok => by simp [Answer.ofStatus] at hok, fun _ => readByte_raise s _ a⟩

/-- Settles O48: only fault entry writes `FAULT`, and it keeps the first cause. -/
theorem faultIsSticky : Obligations.FaultIsSticky :=
  ⟨fun _ _ _ => exec_fault_sticky, fun _ _ => step_fault_sticky⟩

/-- Settles O50, by the effects an operation can have. -/
theorem bufIsAFifo : Obligations.BufIsAFifo := by
  intro i s t h
  have hclear : i = .clear → t.buf = [] := by rintro rfl; exact exec_clear_buf h
  cases execEffect_of_exec h with
  | answers | raises => exact ⟨0, [], by simp, by simp, by simp, by simp, hclear⟩
  | appends raw hi => exact ⟨0, raw, by simp, by simp, fun _ => hi, by simp, hclear⟩
  | drops n a hi hn => exact ⟨n, [], hn, by simp, by simp, fun _ => hi.imp_right .inl, hclear⟩
  | empties hi => exact ⟨s.buf.length, [], le_rfl, by simp, by simp, fun _ => .inr (.inr hi), hclear⟩

/-- Settles O51: both states meet the one answer, or the one cause, that the constants fix. -/
theorem pureOperationsNeitherReadNorWriteBuf : Obligations.PureOperationsNeitherReadNorWriteBuf := by
  intro i s u t v hfeed hnext hdrain hclear hcfg hs hu
  obtain ⟨a, e⟩ | ⟨c, e⟩ := exec_of_notOfBuf ⟨hfeed, hnext, hdrain, hclear⟩ s.cfg
  · obtain rfl := Host.Outcome.next.inj (hs.symm.trans (e s rfl))
    obtain rfl := Host.Outcome.next.inj (hu.symm.trans (e u hcfg.symm))
    exact ⟨rfl, rfl⟩
  · obtain rfl := Host.Outcome.next.inj (hs.symm.trans (e s))
    obtain rfl := Host.Outcome.next.inj (hu.symm.trans (e u))
    exact ⟨rfl, rfl⟩

/-- Settles O52, by the effects an operation can have. -/
theorem constantsNeverChange : Obligations.ConstantsNeverChange :=
  ⟨fun _ _ _ h => ⟨exec_cfg h, exec_request h⟩, fun _ _ => step_cfg⟩

/-- Settles O7: the empty port is `step`'s waiting case. -/
theorem stepWaitsForATransaction : Obligations.StepWaitsForATransaction := fun _ => step_of_request_nil

/-- Settles O12, by the literal reset state. -/
theorem resetLeavesBufEmptyAndFaultZero : Obligations.ResetLeavesBufEmptyAndFaultZero := ⟨rfl, rfl, rfl, rfl⟩

end Sys2Proof.Machine
end

section
/-! The block's invariant (`State.Inv`) through one operation and one step, a lemma for each of its parts. -/

namespace Sys2Proof.Machine

variable {i : Instr} {s t : State}

/-- Fewer bytes fit where more did (20_memory.md R56). -/
theorem exceedsCap_false_of_le {cap : Option Nat} {m n : Nat} (hmn : m ≤ n) (h : exceedsCap cap n = false) :
    exceedsCap cap m = false :=
  exceedsCap_eq_false.mpr fun c hc => hmn.trans (exceedsCap_eq_false.mp h c hc)

/-- `BUF` grows by FEED only, and FEED has looked at the capacity (42_stream_reassembler.md R131). -/
theorem exec_withinCap (hs : s.withinCap) (h : exec i s = .next t) : t.withinCap := by
  cases execEffect_of_exec h with
  | answers | raises => exact hs
  | appends raw _ hcap => simpa [State.withinCap, State.bufLen] using hcap
  | drops n => exact exceedsCap_false_of_le (by simp [State.bufLen]) hs
  | empties => exact exceedsCap_false_of_le (Nat.zero_le _) hs

theorem raise_legalFault (hs : s.legalFault) (c : Cause) : (s.raise c).legalFault := by
  by_cases hf : s.fault = 0
  · exact .inr ⟨c, if_pos hf⟩
  · simpa [State.legalFault, recordFault_of_ne_zero hf] using hs

theorem exec_legalFault (hs : s.legalFault) (h : exec i s = .next t) : t.legalFault := by
  cases execEffect_of_exec h with
  | raises c => exact raise_legalFault hs c
  | answers | appends | drops | empties => exact hs

/-- Every operation leaves a well-formed answer, whatever stood on the interface before (30_encoding.md R79, R80). -/
theorem exec_answer_wf (h : exec i s = .next t) : ∀ a, t.answer = some a → a.wf t.cfg = true := by
  cases execEffect_of_exec h with
  | answers a _ _ hwf | drops _ a _ _ _ hwf => rintro _ ⟨⟩; exact hwf
  | raises | appends | empties => rintro _ ⟨⟩; rfl

theorem exec_keeps_inv (hs : s.Inv) (h : exec i s = .next t) : t.Inv := by
  obtain ⟨hcap, hfault, -⟩ := hs
  exact ⟨exec_withinCap hcap h, exec_legalFault hfault h, exec_answer_wf h⟩

/-- The invariant does not speak of the request port. -/
theorem setRequest_inv {r : ByteSeq} : (s.setRequest r).Inv ↔ s.Inv := Iff.rfl

end Sys2Proof.Machine
end

section
/-! The statements about the invariant (20_memory.md). -/

namespace Sys2Proof.Machine

/-- Settles O53: a step waits, or runs one operation, which keeps each part of the invariant. -/
theorem stepKeepsTheInvariant : Obligations.StepKeepsTheInvariant := by
  intro s t hs h
  obtain rfl | ⟨i, rest, -, he⟩ := step_next_cases h
  · exact hs
  · exact exec_keeps_inv (setRequest_inv.mpr hs) he

/-- Settles O54: no bytes fit in any capacity, `FAULT` is 0, and no answer stands on the interface. -/
theorem resetHasTheInvariant : Obligations.ResetHasTheInvariant := by
  have hcap : State.reset.withinCap := exceedsCap_eq_false.mpr fun _ _ => Nat.zero_le _
  have hanswer : State.reset.answer = none := rfl
  exact ⟨hcap, .inl rfl, by simp [hanswer]⟩

end Sys2Proof.Machine
end

section
/-! The decoder both ways: what each operation's decoder reads, and that `decode` reads exactly what `encode` writes (30_encoding.md R79,
R81; log entry 3). -/

namespace Sys2Proof

variable {bs rest bytes : ByteSeq} {i : Instr}

theorem Frame.wf_iff {f : Frame} : f.wf = true ↔ f.payload.length = f.size.toNat := beq_iff_eq

/-- Reading a sequence operand takes exactly its encoding. -/
theorem takeSeq_eq_ok {data : ByteSeq} : takeSeq bs = .ok (data, rest) ↔ bs = encodeSeq data ++ rest :=
  ⟨encodeSeq_of_takeSeq, fun h => h ▸ takeSeq_encodeSeq data rest⟩

/-! The operations whose one operand is a sequence differ in the constructor only. -/

theorem decodeCrc8_eq_map (bs : ByteSeq) :
    decodeCrc8 bs = (takeSeq bs).map (Prod.map (fun data => .crc8 (data.map BitVec.toNat)) id) := by
  unfold decodeCrc8; cases takeSeq bs <;> rfl

theorem decodeTrydec_eq_map (bs : ByteSeq) : decodeTrydec bs = (takeSeq bs).map (Prod.map .trydec id) := by
  unfold decodeTrydec; cases takeSeq bs <;> rfl

theorem decodeFeed_eq_map (bs : ByteSeq) : decodeFeed bs = (takeSeq bs).map (Prod.map .feed id) := by
  unfold decodeFeed; cases takeSeq bs <;> rfl

theorem takeSeq_map_eq_ok {k : ByteSeq → Instr} :
    (takeSeq bs).map (Prod.map k id) = .ok (i, rest) ↔ ∃ data, bs = encodeSeq data ++ rest ∧ i = k data := by
  simp only [← takeSeq_eq_ok]
  cases takeSeq bs with
  | error e => simp [Except.map]
  | ok p => simp [Except.map, Prod.ext_iff, eq_comm, and_comm]

theorem decodeEncreq_eq_ok :
    decodeEncreq bs = .ok (i, rest) ↔
      ∃ sender destinationId memoryAddress : Byte, bs = sender :: destinationId :: memoryAddress :: rest ∧
        i = .encreq sender.toNat destinationId.toNat memoryAddress.toNat := by
  constructor
  · intro h
    match bs, h with
    | x :: y :: z :: _, rfl => exact ⟨x, y, z, rfl, rfl⟩
  · rintro ⟨x, y, z, rfl, rfl⟩
    rfl

theorem decodeXmeas_eq_ok :
    decodeXmeas bs = .ok (i, rest) ↔
      ∃ f : Frame, f.wf = true ∧ bs = f.cid :: f.size :: (encodeSeq f.payload ++ rest) ∧ i = .xmeas f := by
  constructor
  · intro h
    match bs, h with
    | cid :: size :: bs, h =>
      cases ht : takeSeq bs with
      | error e => simp [decodeXmeas, ht] at h
      | ok p =>
        simp only [decodeXmeas, ht] at h
        split_ifs at h with hl
        obtain ⟨rfl, rfl⟩ : _ = i ∧ p.2 = rest := by simpa using h
        exact ⟨⟨cid, size, p.1⟩, Frame.wf_iff.mpr hl, by rw [← takeSeq_eq_ok.mp ht], rfl⟩
  · rintro ⟨f, hf, rfl, rfl⟩
    simp [decodeXmeas, takeSeq_encodeSeq, Frame.wf_iff.mp hf]

/-- The rows with an encoding are those with an op code (R83, R84). -/
theorem encode_isSome (i : Instr) : (encode i).isSome = i.opCode.isSome := by cases i <;> rfl

/-- What was written is read, whatever follows. -/
theorem decode_encode (hw : i.wf = true) (he : encode i = some bytes) (rest : ByteSeq) :
    decode (bytes ++ rest) = .ok (i, rest) := by
  cases i with
  | nop | nextframe | clear => cases he; rfl
  | crc8 data =>
    cases he
    have hd : data = (data.map (BitVec.ofNat 8)).map BitVec.toNat := (map_toNat_ofNat hw).symm
    exact (decodeCrc8_eq_map _).trans (takeSeq_map_eq_ok.mpr ⟨_, rfl, congrArg Instr.crc8 hd⟩)
  | encreq x y z =>
    cases he
    simp only [Instr.wf, isByte, Bool.and_eq_true, decide_eq_true_eq] at hw
    obtain ⟨⟨hx, hy⟩, hz⟩ := hw
    refine decodeEncreq_eq_ok.mpr ⟨BitVec.ofNat 8 x, BitVec.ofNat 8 y, BitVec.ofNat 8 z, rfl, ?_⟩
    simp [Nat.mod_eq_of_lt hx, Nat.mod_eq_of_lt hy, Nat.mod_eq_of_lt hz]
  | trydec window => cases he; exact (decodeTrydec_eq_map _).trans (takeSeq_map_eq_ok.mpr ⟨window, rfl, rfl⟩)
  | xmeas f => cases he; exact decodeXmeas_eq_ok.mpr ⟨f, hw, rfl, rfl⟩
  | feed raw => cases he; exact (decodeFeed_eq_map _).trans (takeSeq_map_eq_ok.mpr ⟨raw, rfl, rfl⟩)
  | drain | frame _ | request _ | measurement _ => cases he

/-- What was read is well-formed, and had been written so: one case for each op code. -/
theorem encode_of_decode (h : decode bs = .ok (i, rest)) :
    i.wf = true ∧ ∃ bytes, encode i = some bytes ∧ bs = bytes ++ rest := by
  cases bs with
  | nil => cases h
  | cons op bs =>
    simp only [decode] at h
    split at h <;> rename_i hop
    · obtain rfl : op = 0 := BitVec.eq_of_toNat_eq hop
      cases h
      exact ⟨rfl, [0], rfl, rfl⟩
    · obtain rfl : op = 1 := BitVec.eq_of_toNat_eq hop
      obtain ⟨data, rfl, rfl⟩ := takeSeq_map_eq_ok.mp ((decodeCrc8_eq_map bs).symm.trans h)
      exact ⟨all_isByte_map_toNat data, _, rfl, by rw [map_ofNat_toNat]; rfl⟩
    · obtain rfl : op = 2 := BitVec.eq_of_toNat_eq hop
      obtain ⟨x, y, z, rfl, rfl⟩ := decodeEncreq_eq_ok.mp h
      exact ⟨by simp [Instr.wf, isByte, x.isLt, y.isLt, z.isLt], _, rfl, by simp⟩
    · obtain rfl : op = 3 := BitVec.eq_of_toNat_eq hop
      obtain ⟨window, rfl, rfl⟩ := takeSeq_map_eq_ok.mp ((decodeTrydec_eq_map bs).symm.trans h)
      exact ⟨rfl, _, rfl, rfl⟩
    · obtain rfl : op = 4 := BitVec.eq_of_toNat_eq hop
      obtain ⟨f, hf, rfl, rfl⟩ := decodeXmeas_eq_ok.mp h
      exact ⟨hf, _, rfl, rfl⟩
    · obtain rfl : op = 5 := BitVec.eq_of_toNat_eq hop
      obtain ⟨raw, rfl, rfl⟩ := takeSeq_map_eq_ok.mp ((decodeFeed_eq_map bs).symm.trans h)
      exact ⟨rfl, _, rfl, rfl⟩
    · obtain rfl : op = 6 := BitVec.eq_of_toNat_eq hop
      cases h
      exact ⟨rfl, [6], rfl, rfl⟩
    · obtain rfl : op = 7 := BitVec.eq_of_toNat_eq hop
      cases h
      exact ⟨rfl, [7], rfl, rfl⟩
    · cases h

end Sys2Proof
end

section
/-! The wire rows and the request frame: what each recognition accepts, and with which fields (30_encoding.md R60 to R67, log entry 7). -/

namespace Sys2Proof.Machine

variable {p : Params} {f : Frame} {bytes : ByteSeq}

/-! ## The row FRAME -/

theorem exec_frame_row (bytes : ByteSeq) (s : State) :
    exec (.frame bytes) s = .next (s.reply (wireFrameAnswer (parseFrame s.cfg bytes))) := rfl

/-- A frame with no checksum byte behind it is its own layout (R60). -/
theorem parseFrame_frameBytes (hf : f.wf = true) : parseFrame p (frameBytes p f) = some (f, none) := by
  simp [parseFrame, frameBytes, Frame.wf_iff.mp hf]

/-- The one byte behind a frame has to be its checksum (R63). -/
theorem parseFrame_frameBytes_append (hf : f.wf = true) (c : Byte) :
    parseFrame p (frameBytes p f ++ [c]) = if c = crc8 p (frameBytes p f) then some (f, some c) else none := by
  obtain ⟨cid, size, payload⟩ := f
  have hl : payload.length = size.toNat := Frame.wf_iff.mp hf
  have hpayload := slice_three p.marker cid size payload [c]
  have hframe : slice (p.marker :: cid :: size :: (payload ++ [c])) 0 (3 + payload.length) =
      p.marker :: cid :: size :: payload := by
    simp [slice, Nat.add_comm 3]
  have hsum : (p.marker :: cid :: size :: (payload ++ [c]))[3 + payload.length]? = some c := by
    simp [Nat.add_comm 3]
  simp only [hl] at hpayload hframe hsum
  simp [parseFrame, frameBytes, hl, hpayload, hframe, hsum] <;> rfl

/-- Only a header at the front, with as many bytes behind it as its size byte says or one more, is tested further (R60, R61). -/
theorem header_of_parseFrame {r : Frame × Option Byte} (h : parseFrame p bytes = some r) :
    ∃ (cid size : Byte) (rest : ByteSeq), bytes = p.marker :: cid :: size :: rest ∧
      (rest.length = size.toNat ∨ rest.length = size.toNat + 1) := by
  unfold parseFrame at h
  split at h
  · next m cid size rest =>
    split_ifs at h with hm hl hl
    · exact ⟨cid, size, rest, by rw [hm], .inl hl⟩
    · exact ⟨cid, size, rest, by rw [hm], .inr hl⟩
  · cases h

/-- What the row `FRAME` recognises is a frame's layout, alone or with its checksum. -/
theorem layout_of_parseFrame {r : Frame × Option Byte} (h : parseFrame p bytes = some r) :
    ∃ f : Frame, f.wf = true ∧ (bytes = frameBytes p f ∨ bytes = frameBytes p f ++ [crc8 p (frameBytes p f)]) := by
  obtain ⟨cid, size, rest, rfl, hl | hl⟩ := header_of_parseFrame h
  · exact ⟨⟨cid, size, rest⟩, Frame.wf_iff.mpr hl, .inl rfl⟩
  · obtain ⟨payload, c, rfl⟩ := (List.eq_nil_or_concat' rest).resolve_left (by rintro rfl; simp at hl)
    have hf : (⟨cid, size, payload⟩ : Frame).wf = true := Frame.wf_iff.mpr (by simpa using hl)
    change parseFrame p (frameBytes p ⟨cid, size, payload⟩ ++ [c]) = some r at h
    rw [parseFrame_frameBytes_append hf] at h
    split_ifs at h with hc
    exact ⟨⟨cid, size, payload⟩, hf, .inr (hc ▸ rfl)⟩

/-! ## The row REQUEST -/

theorem exec_request_row (f : Frame) (s : State) :
    exec (.request f) s = .next (s.reply (requestAnswer f.cid (requestFields s.cfg f))) := rfl

/-- R65's tests on a payload that has the room R8 gives it: the destination id, the separator and the memory address. -/
theorem requestFields_append (cid size x y z : Byte) :
    requestFields p ⟨cid, size, p.reqDisc ++ [x, y, z]⟩ = if size = p.reqLen ∧ y = p.reqSep then some (x, z) else none := by
  have hpre : startsWith (p.reqDisc ++ [x, y, z]) p.reqDisc = true := startsWith_iff.mpr (List.prefix_append _ _)
  simp [requestFields, hpre, Params.reqDiscLen]

/-- Two of R65's three tests, as facts. -/
theorem size_and_disc_of_requestFields {r : Byte × Byte} (h : requestFields p f = some r) :
    f.size = p.reqLen ∧ p.reqDisc <+: f.payload := by
  unfold requestFields at h
  split_ifs at h with htests
  simp only [Bool.and_eq_true, decide_eq_true_eq, startsWith_iff] at htests
  exact htests.1

/-- Under R8 the tests of R65 accept exactly the layout of R64. -/
theorem requestFields_eq_some (hf : f.wf = true) (hlen : p.reqLen.toNat = p.reqDiscLen + 3) {d m : Byte} :
    requestFields p f = some (d, m) ↔ f.size = p.reqLen ∧ f.payload = p.reqDisc ++ [d, p.reqSep, m] := by
  obtain ⟨cid, size, payload⟩ := f
  constructor
  · intro h
    obtain ⟨rfl, tail, rfl⟩ := size_and_disc_of_requestFields h
    have htail : tail.length = 3 := by simpa [hlen] using Frame.wf_iff.mp hf
    obtain ⟨x, y, z, rfl⟩ := List.length_eq_three.mp htail
    rw [requestFields_append] at h
    simpa [and_left_comm] using h
  · rintro ⟨rfl, rfl⟩
    simp [requestFields_append]

/-! ## The row MEASUREMENT -/

theorem exec_measurement_row (f : Frame) (s : State) :
    exec (.measurement f) s = .next (s.reply (rawAnswer (rawMeasurement s.cfg f.payload))) := rfl

/-- Two's complement of 16 bits, the high byte above the low one (R67). -/
theorem sext16_eq_toInt_append (hi lo : Byte) : sext16 (hi.toNat * 256 + lo.toNat) = (hi ++ lo).toInt := by
  have happ : (hi ++ lo).toNat = hi.toNat * 256 + lo.toNat := by
    rw [BitVec.toNat_append, ← Nat.shiftLeft_add_eq_or_of_lt lo.isLt, Nat.shiftLeft_eq]
  rw [BitVec.toInt_eq_toNat_cond, happ]
  unfold sext16
  split_ifs <;> omega

/-- R66's test, and R67's value when it holds; with the high byte there, so is the low one. -/
theorem rawMeasurement_eq (hidx : p.measLoIdx < p.measHiIdx) (payload : ByteSeq) :
    rawMeasurement p payload =
      if p.measDisc <+: payload ∧ p.measHiIdx < payload.length then
        some (payload.getD p.measHiIdx 0 ++ payload.getD p.measLoIdx 0).toInt
      else none := by
  unfold rawMeasurement
  simp only [Bool.and_eq_true, startsWith_iff, decide_eq_true_eq]
  split_ifs with h
  · have hlo : p.measLoIdx < payload.length := hidx.trans h.2
    simp [h.2, hlo, sext16_eq_toInt_append]
  · rfl

/-! ## ENCREQ -/

/-- The operands of `ENCREQ` as the bytes they are (R64, R107). -/
theorem execEncreq_toNat (sender destinationId memoryAddress : Byte) (s : State) :
    execEncreq sender.toNat destinationId.toNat memoryAddress.toNat s =
      .next (s.reply { st := .ok, frame := some (requestFrame s.cfg sender destinationId memoryAddress) }) := by
  have hin := firstOutOfRange_eq_none.mpr ⟨sender.isLt, destinationId.isLt, memoryAddress.isLt⟩
  simp only [execEncreq, hin, ofNat_toNat_byte]

/-! ## The step -/

/-- A step runs what the decoder reads at the front of the request port (20_memory.md R49). -/
theorem step_of_decode {s : State} {i : Instr} {rest : ByteSeq} (h : decode s.request = .ok (i, rest)) :
    step s = exec i (s.setRequest rest) := by
  obtain ⟨hnil, -⟩ | ⟨j, rest', hd, e⟩ | ⟨e, -, hd, -⟩ := step_cases s
  · rw [hnil] at h; cases h
  · cases h.symm.trans hd; exact e
  · cases h.symm.trans hd

end Sys2Proof.Machine
end

section
/-! The statements about the interface's codes and encoding and about the wire rows (30_encoding.md). -/

namespace Sys2Proof.Machine

/-- Settles O4: an op code gives an encoding, and the decoder reads it operation by operation. -/
theorem encodedOperationDecodesToItself : Obligations.EncodedOperationDecodesToItself := by
  intro i hw hc
  obtain ⟨bytes, he⟩ := Option.isSome_iff_exists.mp ((encode_isSome i).trans hc)
  exact ⟨bytes, he, decode_encode hw he⟩

/-- Settles O5, by the op code of the first byte and, for a sequence operand, the induction of `encodeSeq_of_takeSeq`. -/
theorem decodedBytesAreTheEncoding : Obligations.DecodedBytesAreTheEncoding := fun _ _ _ => encode_of_decode

/-- Settles O8: a step waits, runs an operation, which completes, or refuses. -/
theorem stepStopsOnlyOnMalformedBytes : Obligations.StepStopsOnlyOnMalformedBytes := by
  intro s
  obtain ⟨-, e⟩ | ⟨i, rest, -, e⟩ | hrefused := step_cases s
  · exact .inl ⟨s, e⟩
  · obtain ⟨t, ht, -⟩ := exec_effect i (s.setRequest rest)
    exact .inl ⟨t, e.trans ht⟩
  · exact .inr hrefused

/-- Settles O21: byte operands are in range, and the body is R64's. -/
theorem encreqBuildsTheRequestFrame : Obligations.EncreqBuildsTheRequestFrame := by
  intro x y z s
  exact ⟨requestBody s.cfg x y z, rfl, requestFrame_length s.cfg x y z, execEncreq_toNat x y z s⟩

/-- Settles O42, by the parser on a frame's own bytes with nothing or one byte behind them. -/
theorem frameRowRecognisesTheLayout : Obligations.FrameRowRecognisesTheLayout := by
  intro f c s hf
  refine ⟨?_, fun hc => ?_, fun hc => ?_⟩
  · rw [exec_frame_row, parseFrame_frameBytes hf]; rfl
  · rw [exec_frame_row, parseFrame_frameBytes_append hf, if_pos hc]; rfl
  · rw [exec_frame_row, parseFrame_frameBytes_append hf, if_neg hc]; rfl

/-- Settles O43: the parser finds nothing, or a frame's layout. -/
theorem frameRowRecognisesNothingElse : Obligations.FrameRowRecognisesNothingElse := by
  rintro bytes s _ _ ⟨⟩ ⟨⟩
  cases hp : parseFrame s.cfg bytes with
  | none => exact .inr rfl
  | some r => exact .inl ⟨rfl, layout_of_parseFrame hp⟩

/-- Settles O44: under R8 the fields are found exactly in a request's layout. -/
theorem requestRowIsTheRequestTest : Obligations.RequestRowIsTheRequestTest := by
  intro f s hf hlen
  constructor
  · intro d m hsize hpayload
    rw [exec_request_row, (requestFields_eq_some hf hlen).mpr ⟨hsize, hpayload⟩]; rfl
  · intro hno
    have hnone : requestFields s.cfg f = none := by
      by_contra hsome
      obtain ⟨⟨d, m⟩, hr⟩ := Option.ne_none_iff_exists'.mp hsome
      obtain ⟨hsize, hpayload⟩ := (requestFields_eq_some hf hlen).mp hr
      exact hno ⟨hsize, d, m, hpayload⟩
    rw [exec_request_row, hnone]; rfl

/-- Settles O45: R66's test decides between the raw value and None. -/
theorem measurementRowIsTheMeasurementTest : Obligations.MeasurementRowIsTheMeasurementTest := by
  intro f s hidx
  constructor
  · intro hdisc hlen
    rw [exec_measurement_row, rawMeasurement_eq hidx, if_pos ⟨hdisc, hlen⟩]; rfl
  · intro hno
    rw [exec_measurement_row, rawMeasurement_eq hidx, if_neg hno]; rfl

/-- Settles O1: the eight codes one by one. -/
theorem opCodesAreTheTable : Obligations.OpCodesAreTheTable := by
  refine ⟨fun _ _ _ _ _ _ _ _ => ⟨rfl, rfl, rfl, rfl, rfl, rfl, rfl, rfl, rfl, rfl, rfl, rfl⟩, fun c => ?_⟩
  have hcodes : ∀ c : BitVec 3, c = 0 ∨ c = 1 ∨ c = 2 ∨ c = 3 ∨ c = 4 ∨ c = 5 ∨ c = 6 ∨ c = 7 := by decide
  obtain rfl | rfl | rfl | rfl | rfl | rfl | rfl | rfl := hcodes c
  · exact ⟨.nop, _, rfl, rfl, rfl⟩
  · exact ⟨.crc8 [], _, rfl, rfl, rfl⟩
  · exact ⟨.encreq 0 0 0, _, rfl, rfl, rfl⟩
  · exact ⟨.trydec [], _, rfl, rfl, rfl⟩
  · exact ⟨.xmeas ⟨0, 0, []⟩, _, rfl, rfl, rfl⟩
  · exact ⟨.feed [], _, rfl, rfl, rfl⟩
  · exact ⟨.nextframe, _, rfl, rfl, rfl⟩
  · exact ⟨.clear, _, rfl, rfl, rfl⟩

/-- Settles O2, by the tables; no status takes the code 6. -/
theorem statusAndFaultCodesAreTheTables : Obligations.StatusAndFaultCodesAreTheTables := by
  have hunused : ∀ st : Status, st.code ≠ 6 := by intro st; cases st <;> decide
  exact ⟨rfl, rfl, rfl, rfl, rfl, rfl, rfl, hunused, rfl, rfl, rfl⟩

/-- Settles O3: the decoder run on each transaction. -/
theorem writtenOutTransactionsDecode : Obligations.WrittenOutTransactionsDecode :=
  ⟨rfl, rfl, rfl, rfl, rfl, rfl, rfl, rfl, rfl, rfl⟩

/-- Settles O6: bytes that decode are `step`'s running case. -/
theorem stepRunsTheDecodedOperation : Obligations.StepRunsTheDecodedOperation := fun _ _ _ => step_of_decode

end Sys2Proof.Machine
end

section
/-! The checksum's byte step and its register (40_checksum.md R91 to R97), the lemmas the statements below are assembled from. -/

namespace Sys2Proof.Machine

open Function

variable {poly : Byte}

/-! ## The shifts -/

theorem crcShifts_eq_iterate (poly : Byte) (n : Nat) : crcShifts poly n = (crcShift poly)^[n] := by
  induction n with
  | zero => rfl
  | succ n ih => rw [iterate_succ, ← ih]; rfl

theorem crcShiftsLsb_eq_iterate (poly : Byte) (n : Nat) : crcShiftsLsb poly n = (crcShiftLsb poly)^[n] := by
  induction n with
  | zero => rfl
  | succ n ih => rw [iterate_succ, ← ih]; rfl

/-- Bit 0 after one shift: only the polynomial, when a one leaves bit 7, can set it (R92). -/
theorem crcShift_bit_zero (poly t : Byte) : (crcShift poly t).getLsbD 0 = (t.getLsbD 7 && poly.getLsbD 0) := by
  have hshift : (t <<< 1).getLsbD 0 = false := by rw [BitVec.getLsbD_shiftLeft]; simp
  unfold crcShift
  split_ifs with h7 <;> simp only [BitVec.getLsbD_xor, hshift, h7, Bool.true_and, Bool.false_and, Bool.false_xor]

/-- A higher bit after one shift: the bit below it, and the polynomial's when a one leaves bit 7 (R92). -/
theorem crcShift_bit_succ (poly t : Byte) {i : Nat} (hi : i + 1 < 8) :
    (crcShift poly t).getLsbD (i + 1) = (t.getLsbD i ^^ (t.getLsbD 7 && poly.getLsbD (i + 1))) := by
  have hshift : (t <<< 1).getLsbD (i + 1) = t.getLsbD i := by rw [BitVec.getLsbD_shiftLeft]; simp [hi]
  unfold crcShift
  split_ifs with h7 <;> simp only [BitVec.getLsbD_xor, hshift, h7, Bool.true_and, Bool.false_and, Bool.xor_false]

/-- With the x^0 coefficient set, bit 0 after a shift tells which bit was shifted out, so no shift loses anything (R98). -/
theorem crcShift_injective (h0 : poly.getLsbD 0 = true) : Injective (crcShift poly) := by
  intro a b hab
  have hbit (i : Nat) : (crcShift poly a).getLsbD i = (crcShift poly b).getLsbD i := by rw [hab]
  have h7 : a.getLsbD 7 = b.getLsbD 7 := by simpa only [crcShift_bit_zero, h0, Bool.and_true] using hbit 0
  apply BitVec.eq_of_getLsbD_eq
  intro i hi
  obtain rfl | hlt : i = 7 ∨ i + 1 < 8 := by omega
  · exact h7
  · simpa only [crcShift_bit_succ _ _ hlt, h7, Bool.xor_right_inj, Bool.xor_left_inj] using hbit (i + 1)

theorem reflect8_injective : Injective reflect8 := LeftInverse.injective reflect8_reflect8

theorem reflect8_shiftLeft_one (t : Byte) : reflect8 (t <<< 1) = reflect8 t >>> 1 := by
  apply BitVec.eq_of_getLsbD_eq
  intro i hi
  rw [reflect8_bit _ hi, BitVec.getLsbD_shiftLeft, BitVec.getLsbD_ushiftRight]
  obtain rfl | hlt : i = 7 ∨ i < 7 := by omega
  · simp
  · have hin : 7 - i < 8 ∧ ¬7 - i < 1 := by omega
    rw [reflect8_bit _ (by omega : 1 + i < 8), Nat.sub_sub, Nat.add_comm i 1]
    simp only [hin, decide_true, decide_false, Bool.not_false, Bool.true_and]

/-- One shift of the least-significant-first form is one shift of the other, seen in the mirror (R97). -/
theorem reflect8_semiconj_crcShift (poly : Byte) : Semiconj reflect8 (crcShift poly) (crcShiftLsb poly) := by
  intro t
  have h0 : (reflect8 t).getLsbD 0 = t.getLsbD 7 := reflect8_bit t (by decide)
  simp only [crcShift, crcShiftLsb, h0]
  split_ifs
  · rw [reflect8_xor, reflect8_shiftLeft_one]
  · exact reflect8_shiftLeft_one t

/-! ## One byte -/

/-- A byte enters the register reflected, and eight shifts follow (R92, R94). -/
theorem crc8Step_eq (poly reg b : Byte) : crc8Step poly reg b = (crcShift poly)^[8] (reg ^^^ reflect8 b) :=
  congrFun (crcShifts_eq_iterate poly 8) _

/-- In the mirror the byte enters as it is (R97). -/
theorem reflect8_crc8Step (poly reg b : Byte) :
    reflect8 (crc8Step poly reg b) = (crcShiftLsb poly)^[8] (reflect8 reg ^^^ b) := by
  rw [crc8Step_eq, (reflect8_semiconj_crcShift poly).iterate_right 8, reflect8_xor, reflect8_reflect8]

theorem crc8Step_injective_reg (h0 : poly.getLsbD 0 = true) (b : Byte) : Injective (crc8Step poly · b) := by
  intro r s hrs
  simp only [crc8Step_eq] at hrs
  exact (BitVec.xor_left_inj _).mp ((crcShift_injective h0).iterate 8 hrs)

theorem crc8Step_injective_byte (h0 : poly.getLsbD 0 = true) (reg : Byte) : Injective (crc8Step poly reg) := by
  intro b c hbc
  simp only [crc8Step_eq] at hbc
  exact reflect8_injective ((BitVec.xor_right_inj _).mp ((crcShift_injective h0).iterate 8 hbc))

/-! ## The register after a sequence, and the checksum -/

theorem crc8Reg_append (poly reg : Byte) (a b : ByteSeq) : crc8Reg poly reg (a ++ b) = crc8Reg poly (crc8Reg poly reg a) b :=
  List.foldl_append

theorem crc8Reg_cons (poly reg x : Byte) (data : ByteSeq) :
    crc8Reg poly reg (x :: data) = crc8Reg poly (crc8Step poly reg x) data := rfl

/-- Whatever bytes follow, two registers stay apart (R98). -/
theorem crc8Reg_injective (h0 : poly.getLsbD 0 = true) (data : ByteSeq) : Injective (crc8Reg poly · data) := by
  induction data with
  | nil => exact injective_id
  | cons x xs ih => exact ih.comp (crc8Step_injective_reg h0 x)

/-- The register of the least-significant-first form is the reflected register, after every byte (R97). -/
theorem foldl_crcShiftLsb (poly reg : Byte) (data : ByteSeq) :
    data.foldl (fun r b => (crcShiftLsb poly)^[8] (r ^^^ b)) (reflect8 reg) = reflect8 (crc8Reg poly reg data) :=
  List.foldl_hom reflect8 fun r b => (reflect8_crc8Step poly r b).symm

/-- The register is reflected, then masked (R95). -/
theorem crc8_eq (p : Params) (data : ByteSeq) :
    crc8 p data = reflect8 (crc8Reg p.crcPoly p.crcInit data) ^^^ p.crcXorOut := rfl

theorem crc8Lsb_eq_crc8 (p : Params) (data : ByteSeq) : crc8Lsb p data = crc8 p data := by
  rw [crc8Lsb, crcShiftsLsb_eq_iterate, foldl_crcShiftLsb, crc8_eq]

/-- The checksum enters the register it was made from, which cancels itself: what is left is the reflected mask
(95_test_vectors.md V2). -/
theorem crc8Reg_xor_reflect8_crc8 (p : Params) (data : ByteSeq) :
    crc8Reg p.crcPoly p.crcInit data ^^^ reflect8 (crc8 p data) = reflect8 p.crcXorOut := by
  rw [crc8_eq, reflect8_xor, reflect8_reflect8, ← BitVec.xor_assoc, BitVec.xor_self, BitVec.zero_xor]

theorem crc8_append_crc8 (p : Params) (data : ByteSeq) :
    crc8 p (data ++ [crc8 p data]) = reflect8 ((crcShift p.crcPoly)^[8] (reflect8 p.crcXorOut)) ^^^ p.crcXorOut := by
  have hstep : crc8Reg p.crcPoly p.crcInit (data ++ [crc8 p data]) = (crcShift p.crcPoly)^[8] (reflect8 p.crcXorOut) := by
    rw [crc8Reg_append, ← crc8Reg_xor_reflect8_crc8 p data, ← crc8Step_eq]; rfl
  rw [crc8_eq, hstep]

/-! ## The operation -/

/-- `CRC8` on bytes (R90). -/
theorem exec_crc8_toNat (data : ByteSeq) (s : State) :
    exec (.crc8 (data.map BitVec.toNat)) s = .next (s.reply { st := .ok, crc := some (crc8 s.cfg data) }) := by
  simp only [exec, execCrc8, toBytes_toNat]

/-- `CRC8` on data that are not bytes (R99). -/
theorem exec_crc8_of_not_bytes {data : List Nat} (h : ∃ n ∈ data, 256 ≤ n) (s : State) :
    exec (.crc8 data) s = .next (s.raise .checksumComputeError) := by
  simp only [exec, execCrc8, toBytes_eq_none.mpr h]

end Sys2Proof.Machine
end

section
/-! The statements about the checksum (40_checksum.md). -/

namespace Sys2Proof.Machine

/-- Settles O16: reflection carries one byte step to the other, and so the fold over the bytes. -/
theorem crc8LeastSignificantFirstFormAgrees : Obligations.Crc8LeastSignificantFirstFormAgrees :=
  fun p data => ⟨crc8Lsb_eq_crc8 p data, foldl_crcShiftLsb p.crcPoly p.crcInit data⟩

/-- Settles O18: the bytes before lead to one register, the changed byte parts it, and what follows keeps it apart. -/
theorem crc8SeesOneChangedByte : Obligations.Crc8SeesOneChangedByte := by
  intro p before after x y h0 hxy heq
  simp only [crc8_eq, crc8Reg_append, crc8Reg_cons] at heq
  have hreg := crc8Reg_injective h0 after (reflect8_injective ((BitVec.xor_left_inj _).mp heq))
  exact hxy (crc8Step_injective_byte h0 _ hreg)

/-- Settles O19: both sides have their own checksum at the end. -/
theorem crc8ResidueIsConstant : Obligations.Crc8ResidueIsConstant :=
  fun p data => (crc8_append_crc8 p data).trans (crc8_append_crc8 p []).symm

/-- Settles O13, by the operation on bytes. -/
theorem crc8AnswersTheChecksum : Obligations.Crc8AnswersTheChecksum :=
  fun data s => ⟨rfl, exec_crc8_toNat data s⟩

/-- Settles O14: the model's shifts are the shift iterated, and `reflect8` is R11's. -/
theorem crc8IsTheFoldOfItsByteStep : Obligations.Crc8IsTheFoldOfItsByteStep := by
  refine ⟨fun p data => ?_, fun b _ => reflect8_bit b⟩
  have hstep : crc8Step p.crcPoly = fun reg b => (crcShift p.crcPoly)^[8] (reg ^^^ reflect8 b) :=
    funext₂ (crc8Step_eq p.crcPoly)
  rw [crc8_eq, crc8Reg, hstep]
  rfl

/-- Settles O15: the fold over no bytes is its start value. -/
theorem crc8OfNoBytes : Obligations.Crc8OfNoBytes :=
  fun p s => ⟨crc8_eq p [], exec_crc8_toNat [] s⟩

/-- Settles O17, by the fold over a concatenation. -/
theorem crc8ContinuesFromTheRegister : Obligations.Crc8ContinuesFromTheRegister := by
  intro p a b
  rw [crc8_eq, crc8_eq, crc8Reg_append]

/-- Settles O20: the conversion to bytes fails, and the operation enters the fault. -/
theorem crc8OfNoByteRaises : Obligations.Crc8OfNoByteRaises :=
  fun _ s h => exec_crc8_of_not_bytes h s

end Sys2Proof.Machine
end

section
/-! The frame codec: what each operation answers, the classification of a window and of a longer one, and the request frame as a window
(41_frame_codec.md R105 to R124). -/

namespace Sys2Proof.Machine

variable {m : Byte} {window : ByteSeq} {p : Params} {payload : ByteSeq}

/-! ## TRYDEC -/

theorem exec_trydec (window : ByteSeq) (s : State) :
    exec (.trydec window) s = .next (s.reply (tryDec s.cfg.marker window).answer) := rfl

/-- The count of a Decoded window fits in 9 bits (R115). -/
theorem ofNat_nine_three_add (size : Byte) : BitVec.ofNat 9 (3 + size.toNat) = 3 + size.zeroExtend 9 := by
  apply BitVec.eq_of_toNat_eq
  simp

theorem toNat_three_add_zeroExtend (size : Byte) : (3 + size.zeroExtend 9).toNat = 3 + size.toNat := by
  have := size.isLt
  rw [← ofNat_nine_three_add, BitVec.toNat_ofNat, Nat.mod_eq_of_lt (by omega)]

/-- The answer to a complete frame at the front of a window, whatever follows it (R112, R115). -/
theorem tryDec_decoded_answer {cid size : Byte} (rest : ByteSeq) (hz : size ≠ 0) (h : payload.length = size.toNat) :
    (tryDec m (m :: cid :: size :: (payload ++ rest))).answer =
      { st := .decoded, cid := some cid, size := some size, consumed := some (3 + size.zeroExtend 9), payload := some payload } := by
  rw [tryDec_decoded rest hz h, DecOutcome.answer, ofNat_nine_three_add]

theorem DecOutcome.answer_st_eq_incomplete {o : DecOutcome} : o.answer.st = .incomplete ↔ o = .incomplete := by
  cases o <;> simp [DecOutcome.answer]

theorem DecOutcome.answer_st_eq_invalid {o : DecOutcome} : o.answer.st = .invalid ↔ o = .invalid := by
  cases o <;> simp [DecOutcome.answer]

/-- A window that starts with the marker is not Invalid, whatever its length. -/
theorem tryDec_marker_ne_invalid (m : Byte) (rest : ByteSeq) : tryDec m (m :: rest) ≠ .invalid := by
  obtain h | ⟨cid, tail, rfl⟩ | ⟨cid, size, payload, tail, rfl, hz, hl⟩ := window_cases rest
  · rw [tryDec_incomplete_of_case h]; nofun
  · rw [tryDec_ignorable]; nofun
  · rw [tryDec_decoded tail hz hl]; nofun

/-- What decided a window stands at its front, so bytes behind it change nothing (R114). -/
theorem tryDec_append (h : tryDec m window ≠ .incomplete) (more : ByteSeq) : tryDec m (window ++ more) = tryDec m window := by
  cases window with
  | nil => exact absurd tryDec_nil h
  | cons b rest =>
    by_cases hb : b = m
    · subst hb
      obtain hinc | ⟨cid, tail, rfl⟩ | ⟨cid, size, payload, tail, rfl, hz, hl⟩ := window_cases rest
      · exact absurd (tryDec_incomplete_of_case hinc) h
      · exact (tryDec_ignorable cid (tail ++ more)).trans (tryDec_ignorable cid tail).symm
      · simp only [List.cons_append, List.append_assoc, tryDec_decoded _ hz hl]
    · exact (tryDec_invalid hb (rest ++ more)).trans (tryDec_invalid hb rest).symm

/-- An Incomplete window that is not empty starts with the marker, and so does every longer one (R114). -/
theorem tryDec_append_ne_invalid (h : tryDec m window = .incomplete) (hne : window ≠ []) (more : ByteSeq) :
    tryDec m (window ++ more) ≠ .invalid := by
  obtain ⟨b, rest, rfl⟩ := List.exists_cons_of_ne_nil hne
  by_cases hb : b = m
  · subst hb
    exact tryDec_marker_ne_invalid b (rest ++ more)
  · rw [tryDec_invalid hb] at h
    cases h

/-! ## ENCREQ -/

/-- `ENCREQ` with an operand that is no byte (R108). -/
theorem exec_encreq_of_out_of_range {x y z : Nat} (h : 256 ≤ x ∨ 256 ≤ y ∨ 256 ≤ z) (s : State) :
    exec (.encreq x y z) s = .next (s.raise .encodeRangeError) := by
  have hsome : firstOutOfRange x y z ≠ none := by
    rw [Ne, firstOutOfRange_eq_none]
    omega
  obtain ⟨o, ho⟩ := Option.ne_none_iff_exists'.mp hsome
  simp only [exec, execEncreq, ho]

/-- The payload of a request (R64). -/
def requestPayload (p : Params) (destinationId memoryAddress : Byte) : ByteSeq :=
  p.reqDisc ++ [destinationId, p.reqSep, memoryAddress]

/-- The request frame is a header, the payload and the checksum byte (R60, R64). -/
theorem requestFrame_eq (p : Params) (x y z : Byte) :
    requestFrame p x y z = p.marker :: x :: p.reqLen :: (requestPayload p y z ++ [crc8 p (requestBody p x y z)]) := by
  simp [requestFrame, requestBody, requestPayload]

/-- Without the checksum byte nothing stands behind the payload; `++ []` is the form `tryDec_decoded` reads. -/
theorem requestFrame_take_pred_length (p : Params) (x y z : Byte) :
    (requestFrame p x y z).take ((requestFrame p x y z).length - 1) = p.marker :: x :: p.reqLen :: (requestPayload p y z ++ []) := by
  rw [← List.dropLast_eq_take, requestFrame, List.dropLast_concat]
  simp [requestBody, requestPayload]

/-- R8 makes the length byte of a request right. -/
theorem requestPayload_length (hlen : p.reqLen.toNat = p.reqDiscLen + 3) (y z : Byte) :
    (requestPayload p y z).length = p.reqLen.toNat := by
  simp [requestPayload, hlen]

theorem reqLen_ne_zero (hlen : p.reqLen.toNat = p.reqDiscLen + 3) : p.reqLen ≠ 0 := by
  intro h
  simp [h] at hlen

/-! ## XMEAS -/

/-- `XMEAS` answers as the row `MEASUREMENT` does (R66, R119). -/
theorem exec_xmeas_eq_exec_measurement (f : Frame) (s : State) : exec (.xmeas f) s = exec (.measurement f) s := rfl

/-- The raw value of a payload that holds both bytes, wherever they stand (R66, R67). -/
theorem rawMeasurement_of_getElem? {hi lo : Byte} (hdisc : p.measDisc <+: payload) (hhi : payload[p.measHiIdx]? = some hi)
    (hlo : payload[p.measLoIdx]? = some lo) : rawMeasurement p payload = some (sext16 (hi.toNat * 256 + lo.toNat)) := by
  obtain ⟨hlen, -⟩ := List.getElem?_eq_some_iff.mp hhi
  simp only [rawMeasurement, startsWith_iff.mpr hdisc, hlen, hhi, hlo, decide_true, Bool.and_self, if_true]

end Sys2Proof.Machine
end

section
/-! The statements about the frame codec (41_frame_codec.md). -/

namespace Sys2Proof.Machine

/-- Settles O24, one case of the classification for each shape of the window. -/
theorem trydecClassifiesEveryWindow : Obligations.TrydecClassifiesEveryWindow := by
  intro s
  refine ⟨rfl, fun b rest hb => ?_, fun rest hl => ?_, fun cid rest => ?_, fun cid size rest hz hl => ?_,
    fun cid size payload rest hz hl => ?_⟩
  · rw [exec_trydec, tryDec_invalid hb]; rfl
  · rw [exec_trydec, tryDec_short hl]; rfl
  · rw [exec_trydec, tryDec_ignorable]; rfl
  · rw [exec_trydec, tryDec_incomplete hz hl]; rfl
  · rw [exec_trydec, tryDec_decoded_answer rest hz hl]; rfl

/-- Settles O25: the classification of a window and of a longer one, read off their answers. -/
theorem trydecOutcomeStandsWhenBytesFollow : Obligations.TrydecOutcomeStandsWhenBytesFollow := by
  rintro window more s _ _ _ _ ⟨⟩ ⟨⟩ ⟨⟩ ⟨⟩
  constructor
  · intro h
    rw [tryDec_append (mt DecOutcome.answer_st_eq_incomplete.mpr h)]
  · intro h hne
    exact mt DecOutcome.answer_st_eq_invalid.mp (tryDec_append_ne_invalid (DecOutcome.answer_st_eq_incomplete.mp h) hne more)

/-- Settles O23: the frame, with its checksum byte and without, is a header and a payload of the length R8 gives it, and that payload has
the request's layout. -/
theorem encreqThenTrydecRoundTrip : Obligations.EncreqThenTrydecRoundTrip := by
  intro x y z s hlen
  have hpayload := requestPayload_length hlen y z
  have hdecoded (rest : ByteSeq) := tryDec_decoded_answer (m := s.cfg.marker) (cid := x) rest (reqLen_ne_zero hlen) hpayload
  refine ⟨requestFrame s.cfg x y z, requestPayload s.cfg y z, 3 + s.cfg.reqLen.zeroExtend 9, execEncreq_toNat x y z s, ?_, ?_, ?_⟩
  · rw [toNat_three_add_zeroExtend, requestFrame_length, hlen]
    omega
  · rintro _ (rfl | rfl)
    · rw [exec_trydec, requestFrame_eq, hdecoded]; rfl
    · rw [exec_trydec, requestFrame_take_pred_length, hdecoded]; rfl
  · have hfields : requestFields s.cfg ⟨x, s.cfg.reqLen, requestPayload s.cfg y z⟩ = some (y, z) :=
      (requestFields_eq_some (Frame.wf_iff.mpr hpayload) hlen).mpr ⟨rfl, rfl⟩
    rw [exec_request_row, hfields]; rfl

/-- Settles O26: `XMEAS` makes the test of the row `MEASUREMENT`. -/
theorem xmeasReadsTheMeasurement : Obligations.XmeasReadsTheMeasurement := by
  intro f s hidx
  rw [exec_xmeas_eq_exec_measurement]
  exact measurementRowIsTheMeasurementTest f s hidx

/-- Settles O22: an operand is found out of range, and the operation enters the fault. -/
theorem encreqOutOfRangeRaises : Obligations.EncreqOutOfRangeRaises :=
  fun _ _ _ s h => exec_encreq_of_out_of_range h s

/-- Settles O27: the two bytes make 32767, which is not treated apart. -/
theorem xmeasKeepsTheSentinel : Obligations.XmeasKeepsTheSentinel := by
  intro f s hdisc hhi hlo
  have hraw : sext16 ((0x7F : Byte).toNat * 256 + (0xFF : Byte).toNat) = 32767 := by decide
  rw [exec_xmeas_eq_exec_measurement, exec_measurement_row, rawMeasurement_of_getElem? hdisc hhi hlo, hraw]; rfl

end Sys2Proof.Machine
end

section
/-! The reassembler's operations one by one, and sequences of operations taken apart (42_stream_reassembler.md R130 to R143). -/

namespace Sys2Proof.Machine

variable {s t : State} {raw : ByteSeq}

/-! ## FEED -/

/-- `FEED` of bytes that fit (R131). -/
theorem exec_feed_of_fits (h : exceedsCap s.cfg.bufCap (s.bufLen + raw.length) = false) :
    exec (.feed raw) s = .next ((s.setBuf (s.buf ++ raw)).reply (Answer.ofStatus .ok)) := by
  obtain ⟨-, e⟩ | ⟨h', -⟩ := execFeed_cases raw s
  · exact e
  · simp [h] at h'

/-- `FEED` of bytes that do not fit (R133). -/
theorem exec_feed_of_overflow (h : exceedsCap s.cfg.bufCap (s.bufLen + raw.length) = true) :
    exec (.feed raw) s = .next (s.raise .bufferOverflow) := by
  obtain ⟨h', -⟩ | ⟨-, e⟩ := execFeed_cases raw s
  · simp [h] at h'
  · exact e

/-- A `FEED` that does not answer Fault has appended its bytes, and they fitted. -/
theorem fits_of_exec_feed (h : exec (.feed raw) s = .next t) (hok : ∀ a, t.answer = some a → a.st ≠ .fault) :
    exceedsCap s.cfg.bufCap (s.bufLen + raw.length) = false ∧ t = (s.setBuf (s.buf ++ raw)).reply (Answer.ofStatus .ok) := by
  obtain ⟨hfits, e⟩ | ⟨-, e⟩ := execFeed_cases raw s
  · exact ⟨hfits, Host.Outcome.next.inj (h.symm.trans e)⟩
  · obtain rfl := Host.Outcome.next.inj (h.symm.trans e)
    exact absurd rfl (hok _ rfl)

/-! ## NEXTFRAME and DRAIN -/

theorem nextOf_completes (m : Byte) (buf : ByteSeq) : ∃ b f, nextOf m buf = .ok (b, f) := by
  obtain ⟨n, -, ⟨e, -⟩ | ⟨f, -, -, -, e⟩⟩ := nextOf_spec m buf
  · exact ⟨_, _, e⟩
  · exact ⟨_, _, e⟩

theorem size_toNat_pos {size : Byte} (h : size ≠ 0) : 0 < size.toNat :=
  Nat.pos_of_ne_zero fun h0 => h (BitVec.eq_of_toNat_eq h0)

/-- What `DRAIN` leaves is blocked (R146). -/
theorem blocked_of_exec_drain (h : exec .drain s = .next t) : Blocked t.cfg.marker t.buf := by
  obtain ⟨k, fs, -, -, hb, e⟩ := execDrain_spec s
  obtain rfl := Host.Outcome.next.inj (h.symm.trans e)
  exact hb

/-! ## Sequences of operations -/

theorem runOps_cons {i : Instr} {ops : List Instr} {s' : State} {answers : List Answer} (hi : exec i s = .next s')
    (h : runOps ops s' = .next (t, answers)) : runOps (i :: ops) s = .next (t, s'.answer.toList ++ answers) := by
  simp only [runOps, hi, h]

/-- A sequence that has completed ran its first operation, and then the others. -/
theorem exists_of_runOps_cons {i : Instr} {ops : List Instr} {answers : List Answer}
    (h : runOps (i :: ops) s = .next (t, answers)) :
    ∃ s' rest, exec i s = .next s' ∧ runOps ops s' = .next (t, rest) ∧ answers = s'.answer.toList ++ rest := by
  obtain ⟨s', hi, -⟩ := exec_effect i s
  obtain ⟨t', rest, hops, -⟩ := runOps_completes ops s'
  obtain ⟨rfl, rfl⟩ := Prod.mk.inj (Host.Outcome.next.inj (h.symm.trans (runOps_cons hi hops)))
  exact ⟨s', rest, hi, hops, rfl⟩

theorem runOps_cfg {ops : List Instr} {answers : List Answer} (h : runOps ops s = .next (t, answers)) : t.cfg = s.cfg := by
  obtain ⟨t', answers', e, hcfg⟩ := runOps_completes ops s
  obtain ⟨rfl, -⟩ := Prod.mk.inj (Host.Outcome.next.inj (h.symm.trans e))
  exact hcfg

/-- What a sequence leaves is what its last operation leaves. -/
theorem exists_exec_last_of_runOps {ops : List Instr} {i : Instr} {answers : List Answer}
    (h : runOps (ops ++ [i]) s = .next (t, answers)) : ∃ u, exec i u = .next t := by
  induction ops generalizing s answers with
  | nil =>
    obtain ⟨s', rest, hi, hnil, -⟩ := exists_of_runOps_cons h
    cases hnil
    exact ⟨s, hi⟩
  | cons j ops ih =>
    obtain ⟨s', rest, -, hops, -⟩ := exists_of_runOps_cons h
    exact ih hops

theorem framesOf_append (as bs : List Answer) : framesOf (as ++ bs) = framesOf as ++ framesOf bs := List.flatMap_append

@[simp] theorem framesReturned_frameAnswer (f : Option Frame) : (frameAnswer f).framesReturned = f.toList := by
  cases f <;> rfl

/-- The loop of `DRAIN` is `NEXTFRAME`s that answer Decoded and one that answers None (R145). -/
theorem drainLoop_eq_runOps (n : Nat) (s : State) (acc : List Frame) (h : s.buf.length / 3 + 1 ≤ n) :
    ∃ t answers, runOps (List.replicate (answers.length + 1) .nextframe) s = .next (t, answers ++ [{ st := .none }]) ∧
      (∀ a ∈ answers, a.st = .decoded) ∧
      drainLoop n s acc = .next (t.reply { st := .none, frames := some (acc ++ framesOf answers) }) := by
  induction n generalizing s acc with
  | zero => omega
  | succ n ih =>
    obtain ⟨k, hk, ⟨e, -⟩ | ⟨f, -, -, hsize, e⟩⟩ := execNextframe_spec s
    · refine ⟨_, [], runOps_cons (i := .nextframe) e rfl, by simp, ?_⟩
      simp [drainLoop, e, framesOf]
    · obtain ⟨t, answers, hrun, hdec, hloop⟩ :=
        ih ((s.setBuf (s.buf.drop k)).reply (frameAnswer (some f))) (acc ++ [f]) (by simp; omega)
      refine ⟨t, frameAnswer (some f) :: answers, runOps_cons (i := .nextframe) e hrun, List.forall_mem_cons.mpr ⟨rfl, hdec⟩, ?_⟩
      simp [drainLoop, e, hloop, framesOf]

theorem execDrain_eq_runOps (s : State) :
    ∃ t answers, runOps (List.replicate (answers.length + 1) .nextframe) s = .next (t, answers ++ [{ st := .none }]) ∧
      (∀ a ∈ answers, a.st = .decoded) ∧
      exec .drain s = .next (t.reply { st := .none, frames := some (framesOf answers) }) :=
  drainLoop_eq_runOps (s.bufLen / 3 + 1) s [] le_rfl

/-- A `NEXTFRAME` that answers Decoded takes a header and at least one payload byte (R146). -/
theorem length_of_exec_nextframe_decoded (h : exec .nextframe s = .next t) (hdec : ∀ a, t.answer = some a → a.st = .decoded) :
    t.buf.length + 4 ≤ s.buf.length := by
  obtain ⟨n, hn, ⟨e, -⟩ | ⟨f, -, hz, hsize, e⟩⟩ := execNextframe_spec s
  · obtain rfl := Host.Outcome.next.inj (h.symm.trans e)
    exact absurd (hdec _ rfl) nofun
  · obtain rfl := Host.Outcome.next.inj (h.symm.trans e)
    have hpos := size_toNat_pos hz
    simp only [State.reply_buf, State.setBuf_buf, List.length_drop]
    omega

/-- As many of them take as many times four bytes. -/
theorem length_of_runOps_nextframes_decoded {k : Nat} {answers : List Answer}
    (h : runOps (List.replicate k .nextframe) s = .next (t, answers)) (hdec : ∀ a ∈ answers, a.st = .decoded) :
    t.buf.length + 4 * k ≤ s.buf.length := by
  induction k generalizing s answers with
  | zero => cases h; exact le_rfl
  | succ k ih =>
    obtain ⟨s', rest, hfirst, hrest, rfl⟩ := exists_of_runOps_cons h
    obtain ⟨hdec', hdecrest⟩ := List.forall_mem_append.mp hdec
    have htaken := length_of_exec_nextframe_decoded hfirst fun a ha => hdec' a (by simp [ha])
    have hothers := ih hrest hdecrest
    omega

end Sys2Proof.Machine
end

section
/-! What the scan takes from a buffer, as a relation that does not say which operation ran which iteration. It goes on unchanged when bytes
are appended, and it has one end; the reassembler's laws are read off from these two facts (42_stream_reassembler.md R147, R148). -/

namespace Sys2Proof.Machine

variable {m : Byte} {b c d stray rest payload : ByteSeq} {n : Nat} {f : Frame} {fs gs : List Frame} {cid size : Byte}

/-! ## One iteration -/

/-- An iteration that drops an ignorable frame drops bytes that are there, and decides the same when bytes follow (R114). -/
theorem scanStep_skip_append (h : scanStep m b = .skip n) : n ≤ b.length ∧ ∀ more, scanStep m (b ++ more) = .skip n := by
  obtain hb | ⟨stray, cid, rest, hm, rfl⟩ | ⟨stray, cid, size, payload, rest, hm, rfl, hz, hl⟩ := buf_cases m b
  · cases (scanStep_blocked hb).symm.trans h
  · rw [scanStep_ignorable hm] at h
    cases h
    exact ⟨by simp, fun more => by simp only [List.append_assoc, List.cons_append, scanStep_ignorable hm]⟩
  · cases (scanStep_decoded rest hm hz hl).symm.trans h

/-- The same of an iteration that returns a frame. -/
theorem scanStep_emit_append (h : scanStep m b = .emit n f) : n ≤ b.length ∧ ∀ more, scanStep m (b ++ more) = .emit n f := by
  obtain hb | ⟨stray, cid, rest, hm, rfl⟩ | ⟨stray, cid, size, payload, rest, hm, rfl, hz, hl⟩ := buf_cases m b
  · cases (scanStep_blocked hb).symm.trans h
  · cases (scanStep_ignorable hm cid rest).symm.trans h
  · rw [scanStep_decoded rest hm hz hl] at h
    cases h
    exact ⟨by simp; omega, fun more => by simp only [List.append_assoc, List.cons_append, scanStep_decoded _ hm hz hl]⟩

/-! ## Iterations in a row -/

/-- `Extracts m b fs c`: some iterations of the scan, one after another, take `b` to `c` and return the frames `fs` (R136). -/
inductive Extracts (m : Byte) : ByteSeq → List Frame → ByteSeq → Prop where
  | refl (b : ByteSeq) : Extracts m b [] b
  | skip {b c : ByteSeq} {n : Nat} {fs : List Frame} (hstep : scanStep m b = .skip n) (h : Extracts m (b.drop n) fs c) :
      Extracts m b fs c
  | emit {b c : ByteSeq} {n : Nat} {f : Frame} {fs : List Frame} (hstep : scanStep m b = .emit n f)
      (h : Extracts m (b.drop n) fs c) : Extracts m b (f :: fs) c

theorem Extracts.trans (h : Extracts m b fs c) (h' : Extracts m c gs d) : Extracts m b (fs ++ gs) d := by
  induction h with
  | refl => exact h'
  | skip hstep _ ih => exact .skip hstep (ih h')
  | emit hstep _ ih => exact .emit hstep (ih h')

/-- Bytes still to come change nothing of what has been taken. -/
theorem Extracts.append (h : Extracts m b fs c) (more : ByteSeq) : Extracts m (b ++ more) fs (c ++ more) := by
  induction h with
  | refl => exact .refl _
  | skip hstep _ ih =>
    obtain ⟨hn, hmore⟩ := scanStep_skip_append hstep
    exact .skip (hmore more) (List.drop_append_of_le_length hn ▸ ih)
  | emit hstep _ ih =>
    obtain ⟨hn, hmore⟩ := scanStep_emit_append hstep
    exact .emit (hmore more) (List.drop_append_of_le_length hn ▸ ih)

/-- There is one way to the end. -/
theorem Extracts.unique (h : Extracts m b fs c) (hc : Blocked m c) (h' : Extracts m b gs d) (hd : Blocked m d) :
    fs = gs ∧ c = d := by
  have hcstop := scanStep_blocked hc
  have hdstop := scanStep_blocked hd
  induction h generalizing gs with
  | refl =>
    cases h' with
    | refl => exact ⟨rfl, rfl⟩
    | skip hstep' | emit hstep' => cases hcstop.symm.trans hstep'
  | skip hstep _ ih =>
    cases h' with
    | refl => cases hdstop.symm.trans hstep
    | skip hstep' h' =>
      cases hstep.symm.trans hstep'
      exact ih hc h' hcstop
    | emit hstep' => cases hstep.symm.trans hstep'
  | emit hstep _ ih =>
    cases h' with
    | refl => cases hdstop.symm.trans hstep
    | skip hstep' => cases hstep.symm.trans hstep'
    | emit hstep' h' =>
      cases hstep.symm.trans hstep'
      obtain ⟨rfl, rfl⟩ := ih hc h' hcstop
      exact ⟨rfl, rfl⟩

/-- An ignorable frame is passed over (R139). -/
theorem Extracts.ignorable (hm : m ∉ stray) (h : Extracts m rest fs c) : Extracts m (stray ++ m :: cid :: 0 :: rest) fs c := by
  refine .skip (scanStep_ignorable hm cid rest) ?_
  simpa [List.drop_length_add_append] using h

/-- A complete frame is returned (R140). -/
theorem Extracts.decoded (hm : m ∉ stray) (hz : size ≠ 0) (hl : payload.length = size.toNat) (h : Extracts m rest fs c) :
    Extracts m (stray ++ m :: cid :: size :: (payload ++ rest)) (⟨cid, size, payload⟩ :: fs) c := by
  refine .emit (scanStep_decoded rest hm hz hl) ?_
  simpa [List.drop_length_add_append, Nat.add_comm 3, ← hl] using h

/-! ## The operations -/

/-- The scan of one `NEXTFRAME` (R136). -/
theorem extracts_of_scan {o : Option Frame} (h : scan m n b = .ok (c, o)) : Extracts m b o.toList c := by
  induction n generalizing b with
  | zero => cases h
  | succ n ih =>
    cases hstep : scanStep m b with
    | stop =>
      simp only [scan, hstep] at h
      cases h
      exact .refl _
    | skip k =>
      simp only [scan, hstep, bufDrop_ok (scanStep_skip_append hstep).1] at h
      exact .skip hstep (ih h)
    | emit k f =>
      simp only [scan, hstep, bufDrop_ok (scanStep_emit_append hstep).1] at h
      cases h
      exact .emit hstep (.refl _)

/-- The bytes an operation brings. -/
def fedBytes : Instr → ByteSeq
  | .feed raw => raw
  | _ => []

theorem fedBytes_nextframes (k : Nat) : (List.replicate k Instr.nextframe).flatMap fedBytes = [] :=
  List.flatMap_eq_nil_iff.mpr fun _ hi => List.eq_of_mem_replicate hi ▸ rfl

/-- An operation of the receive path: unless it answers Fault, it appends the bytes it brings, runs some iterations of the scan, and answers
the frames they returned. -/
def Receives (i : Instr) : Prop :=
  ∀ s t, exec i s = .next t → (∀ a ∈ t.answer.toList, a.st ≠ .fault) →
    Extracts s.cfg.marker (s.buf ++ fedBytes i) (framesOf t.answer.toList) t.buf

/-- How a sequence of such operations divides the work among them does not show. -/
theorem extracts_of_runOps {ops : List Instr} {s t : State} {answers : List Answer} (hops : ∀ i ∈ ops, Receives i)
    (h : runOps ops s = .next (t, answers)) (hok : ∀ a ∈ answers, a.st ≠ .fault) :
    Extracts s.cfg.marker (s.buf ++ ops.flatMap fedBytes) (framesOf answers) t.buf := by
  induction ops generalizing s answers with
  | nil =>
    cases h
    simpa [framesOf] using Extracts.refl _
  | cons i ops ih =>
    obtain ⟨s', rest, hi, hrest, rfl⟩ := exists_of_runOps_cons h
    obtain ⟨hrecv, hops⟩ := List.forall_mem_cons.mp hops
    obtain ⟨hok', hokrest⟩ := List.forall_mem_append.mp hok
    have hfirst := (hrecv s s' hi hok').append (ops.flatMap fedBytes)
    have hothers := ih hops hrest hokrest
    rw [exec_cfg hi] at hothers
    rw [framesOf_append, List.flatMap_cons, ← List.append_assoc]
    exact hfirst.trans hothers

theorem receives_feed (raw : ByteSeq) : Receives (.feed raw) := by
  intro s t h hok
  obtain ⟨-, rfl⟩ := fits_of_exec_feed h fun a ha => hok a (by simp [ha])
  exact .refl _

theorem receives_nextframe : Receives .nextframe := by
  intro s t h _
  obtain ⟨b, o, e⟩ := nextOf_completes s.cfg.marker s.buf
  obtain rfl := Host.Outcome.next.inj (h.symm.trans (execNextframe_of_nextOf e))
  simpa [fedBytes, framesOf] using extracts_of_scan e

theorem receives_drain : Receives .drain := by
  intro s t h _
  obtain ⟨u, answers, hrun, hdec, e⟩ := execDrain_eq_runOps s
  obtain rfl := Host.Outcome.next.inj (h.symm.trans e)
  have hok : ∀ a ∈ answers ++ [({ st := .none } : Answer)], a.st ≠ .fault :=
    List.forall_mem_append.mpr ⟨fun a ha => by simp [hdec a ha], by simp⟩
  have hext := extracts_of_runOps (fun i hi => List.eq_of_mem_replicate hi ▸ receives_nextframe) hrun hok
  simpa [fedBytes, fedBytes_nextframes, framesOf, Answer.framesReturned, Answer.frameValue] using hext

/-! ## The host of R147 -/

theorem receives_of_mem_chunkedOps {chunks : List (ByteSeq × Nat)} {i : Instr} (hi : i ∈ chunkedOps chunks) : Receives i := by
  simp only [chunkedOps, List.mem_append, List.mem_flatMap, List.mem_cons, List.not_mem_nil, or_false] at hi
  obtain ⟨chunk, -, rfl | hi⟩ | rfl := hi
  · exact receives_feed chunk.1
  · exact List.eq_of_mem_replicate hi ▸ receives_nextframe
  · exact receives_drain

theorem fedBytes_chunkedOps (chunks : List (ByteSeq × Nat)) : (chunkedOps chunks).flatMap fedBytes = chunks.flatMap Prod.fst := by
  simp [chunkedOps, List.flatMap_assoc, fedBytes, fedBytes_nextframes]

/-- However the stream is cut, the scan is run on all of it and to its end. -/
theorem extracts_of_chunkedOps {chunks : List (ByteSeq × Nat)} {s t : State} {answers : List Answer}
    (h : runOps (chunkedOps chunks) s = .next (t, answers)) (hok : ∀ a ∈ answers, a.st ≠ .fault) :
    Extracts s.cfg.marker (s.buf ++ chunks.flatMap Prod.fst) (framesOf answers) t.buf ∧ Blocked s.cfg.marker t.buf := by
  obtain ⟨u, hdrain⟩ := exists_exec_last_of_runOps h
  exact ⟨fedBytes_chunkedOps chunks ▸ extracts_of_runOps (fun _ => receives_of_mem_chunkedOps) h hok,
    runOps_cfg h ▸ blocked_of_exec_drain hdrain⟩

/-! ## Frames laid end to end -/

/-- Every frame is found from its own start, and those of size 0 are passed over (R148, R149). -/
theorem extracts_frames (p : Params) {frames : List Frame} (hwf : ∀ f ∈ frames, f.wf = true) (fragment : ByteSeq) :
    Extracts p.marker (frames.flatMap (frameBytes p) ++ fragment) (frames.filter fun f => f.size != 0) fragment := by
  induction frames with
  | nil => exact .refl fragment
  | cons f frames ih =>
    obtain ⟨cid, size, payload⟩ := f
    obtain ⟨hf, hframes⟩ := List.forall_mem_cons.mp hwf
    have hl : payload.length = size.toNat := Frame.wf_iff.mp hf
    rw [List.flatMap_cons, List.append_assoc]
    by_cases hz : size = 0
    · subst hz
      obtain rfl : payload = [] := List.eq_nil_of_length_eq_zero hl
      rw [List.filter_cons_of_neg (by simp)]
      exact (ih hframes).ignorable (stray := []) List.not_mem_nil
    · rw [List.filter_cons_of_pos (by simpa using hz)]
      exact (ih hframes).decoded (stray := []) List.not_mem_nil hz hl

/-- A proper first part of a frame has no frame in it (R148). -/
theorem blocked_fragment (p : Params) {k : Nat} (hf : f.wf = true) (hz : f.size ≠ 0) (hk : k < (frameBytes p f).length) :
    Blocked p.marker ((frameBytes p f).take k) := by
  have hl := Frame.wf_iff.mp hf
  match k with
  | 0 => exact .inl (by simp)
  | 1 => exact .inr ⟨[], [], by simp, rfl, .inl (by simp)⟩
  | 2 => exact .inr ⟨[], [f.cid], by simp, rfl, .inl (by simp)⟩
  | k + 3 =>
    simp only [frameBytes, List.length_cons] at hk
    refine .inr ⟨[], f.cid :: f.size :: f.payload.take k, by simp, rfl, .inr ⟨_, _, _, rfl, hz, ?_⟩⟩
    simp only [List.length_take]
    omega

end Sys2Proof.Machine
end

section
/-! The statements about the stream reassembler (42_stream_reassembler.md). -/

namespace Sys2Proof.Machine

/-- Settles O40: both ways run the scan on the same stream to its end, and there is one end. -/
theorem chunkingDoesNotChangeTheFrames : Obligations.ChunkingDoesNotChangeTheFrames := by
  intro chunks₁ chunks₂ s t₁ t₂ answers₁ answers₂ _ hstream h₁ hok₁ h₂ hok₂
  obtain ⟨hext₁, hb₁⟩ := extracts_of_chunkedOps h₁ hok₁
  obtain ⟨hext₂, hb₂⟩ := extracts_of_chunkedOps h₂ hok₂
  rw [hstream] at hext₁
  exact hext₁.unique hb₁ hext₂ hb₂

/-- Settles O41: DRAIN runs the scan to its end, and the stream's end is the fragment. -/
theorem backToBackFramesAreAllReturned : Obligations.BackToBackFramesAreAllReturned := by
  intro frames last k stream s hwf hlast hz hk hbuf hstream hcap
  have hfits : exceedsCap s.cfg.bufCap (s.bufLen + stream.length) = false :=
    exceedsCap_eq_false.mpr (by simpa [State.bufLen, hbuf] using hcap)
  have hfeed := exec_feed_of_fits hfits
  rw [hbuf, List.nil_append] at hfeed
  obtain ⟨n, fs, -, -, hb, hdrain⟩ := execDrain_spec ((s.setBuf stream).reply (Answer.ofStatus .ok))
  have hext := receives_drain _ _ hdrain (by simp)
  have hframes := extracts_frames s.cfg hwf ((frameBytes s.cfg last).take k)
  rw [← hstream] at hframes
  obtain ⟨hfs, hrest⟩ := Extracts.unique (by simpa [fedBytes] using hext) hb hframes (blocked_fragment s.cfg hlast hz hk)
  exact ⟨_, _, runOps_cons hfeed (runOps_cons hdrain rfl), hfs, hrest, rfl⟩

/-- Settles O38, by the loop of DRAIN. -/
theorem drainIsNextframeUntilNone : Obligations.DrainIsNextframeUntilNone := by
  refine ⟨rfl, fun s => ?_⟩
  obtain ⟨t, answers, hrun, hdec, hdrain⟩ := execDrain_eq_runOps s
  exact ⟨answers.length, t, answers, hrun, rfl, hdec, hdrain⟩

/-- Settles O39, by the bytes one NEXTFRAME takes and by the blocked buffer DRAIN leaves. -/
theorem drainLeavesNothingExtractable : Obligations.DrainLeavesNothingExtractable := by
  refine ⟨fun _ _ _ _ => length_of_runOps_nextframes_decoded, fun s t h => ?_⟩
  have hb := blocked_of_exec_drain h
  exact ⟨execNextframe_blocked hb, hb⟩

/-- Settles O28, by the two outcomes of FEED. -/
theorem feedAppendsAllOrRaises : Obligations.FeedAppendsAllOrRaises :=
  fun _ _ => ⟨fun hfits => exec_feed_of_fits (exceedsCap_eq_false.mpr hfits),
    fun c hc hlt => exec_feed_of_overflow (exceedsCap_eq_true.mpr ⟨c, hc, hlt⟩)⟩

/-- Settles O30: the second FEED has looked at the length of all the bytes. -/
theorem twoFeedsAreOne : Obligations.TwoFeedsAreOne := by
  intro a b s t u ht hokt hu hoku
  obtain ⟨-, rfl⟩ := fits_of_exec_feed ht (by simp [hokt])
  obtain ⟨hfits, rfl⟩ := fits_of_exec_feed hu (by simp [hoku])
  have hfits' : exceedsCap s.cfg.bufCap (s.bufLen + (a ++ b).length) = false := by
    simpa [State.bufLen, Nat.add_assoc] using hfits
  rw [exec_feed_of_fits hfits', ← List.append_assoc]
  rfl

/-- Settles O32: without a marker the buffer is blocked. -/
theorem nextframeWithoutMarkerKeepsBuf : Obligations.NextframeWithoutMarkerKeepsBuf :=
  fun _ h => execNextframe_blocked (.inl h)

/-- Settles O33: an incomplete frame at the first marker blocks the buffer. -/
theorem nextframeWaitsForAnIncompleteFrame : Obligations.NextframeWaitsForAnIncompleteFrame :=
  fun stray rest _ hm hbuf h => execNextframe_blocked (.inr ⟨stray, rest, hm, hbuf, h⟩)

/-- Settles O34: both scans have one result. -/
theorem nextframeDropsAnIgnorableFrame : Obligations.NextframeDropsAnIgnorableFrame := by
  intro stray rest cid s hm hbuf
  obtain ⟨b, f, e⟩ := nextOf_completes s.cfg.marker rest
  have e' : nextOf s.cfg.marker s.buf = .ok (b, f) := by rw [hbuf, nextOf_ignorable hm, e]
  exact (execNextframe_of_nextOf e').trans (execNextframe_of_nextOf (s := s.setBuf rest) e).symm

/-- Settles O35, by the scan of a buffer with a complete frame first. -/
theorem nextframeReturnsACompleteFrame : Obligations.NextframeReturnsACompleteFrame := by
  intro stray payload rest cid size s hm hz hl hbuf
  exact execNextframe_of_nextOf (by rw [hbuf, nextOf_decoded rest hm hz hl])

/-- Settles O36, by everything NEXTFRAME can do. -/
theorem nextframeOnlyDropsFromTheFront : Obligations.NextframeOnlyDropsFromTheFront := by
  intro s
  obtain ⟨n, hn, ⟨e, -⟩ | ⟨f, hf, hz, hsize, e⟩⟩ := execNextframe_spec s
  · exact ⟨n, hn, .inl e⟩
  · exact ⟨n, hn, .inr ⟨f, hf, hz, hsize, e⟩⟩

/-- Settles O37: what a None leaves is blocked, and the answer already stands on the interface. -/
theorem nextframeNoneTwice : Obligations.NextframeNoneTwice := by
  intro s t h hnone
  obtain ⟨n, -, ⟨e, hb⟩ | ⟨f, -, -, -, e⟩⟩ := execNextframe_spec s
  · obtain rfl := Host.Outcome.next.inj (h.symm.trans e)
    exact execNextframe_blocked hb
  · obtain rfl := Host.Outcome.next.inj (h.symm.trans e)
    simp [frameAnswer] at hnone

/-- Settles O10, by NOP's meaning. -/
theorem nopDoesNothing : Obligations.NopDoesNothing := ⟨rfl, fun _ => rfl⟩

/-- Settles O11, by CLEAR's meaning. -/
theorem clearEmptiesBufAndKeepsFault : Obligations.ClearEmptiesBufAndKeepsFault := ⟨rfl, fun _ => rfl⟩

/-- Settles O29: no bytes fit wherever the buffer does. -/
theorem feedOfNoBytesChangesNothing : Obligations.FeedOfNoBytesChangesNothing := by
  intro s hcap
  rw [exec_feed_of_fits (raw := []) hcap, List.append_nil]
  rfl

end Sys2Proof.Machine
end

section
/-! The host's pure functions, each by its own rules: the sweep's ids, the result list, the mean and the aggregate (45_host_poller.md R158 to
R164). -/

namespace Sys2Proof.Machine

variable {hp : HostParams} {tieUp : Int → Bool} {raws : List Int}

/-! ## The sweep -/

/-- As numbers the ids are a run of consecutive ones: no sum of the sweep leaves the byte range. -/
theorem map_toNat_sweepIds (hp : HostParams) :
    (sweepIds hp).map BitVec.toNat =
      List.range' hp.addrRangeStart.toNat (hp.addrRangeEnd.toNat + 1 - hp.addrRangeStart.toNat) := by
  rw [List.range'_eq_map_range, sweepIds, List.map_map]
  refine List.map_congr_left fun k hk => ?_
  have hk := List.mem_range.mp hk
  have hend := hp.addrRangeEnd.isLt
  exact Nat.mod_eq_of_lt (by omega)

theorem mem_sweepIds {d : Byte} : d ∈ sweepIds hp ↔ hp.addrRangeStart ≤ d ∧ d ≤ hp.addrRangeEnd := by
  rw [← List.mem_map_of_injective BitVec.toNat_injective, map_toNat_sweepIds, List.mem_range'_1, BitVec.le_def, BitVec.le_def]
  omega

theorem sweepIds_pairwise_lt (hp : HostParams) : (sweepIds hp).Pairwise (· < ·) := by
  have h := List.pairwise_lt_range' (s := hp.addrRangeStart.toNat) (n := hp.addrRangeEnd.toNat + 1 - hp.addrRangeStart.toNat)
  rw [← map_toNat_sweepIds, List.pairwise_map] at h
  exact h

theorem length_sweepIds (hp : HostParams) :
    (sweepIds hp).length = hp.addrRangeEnd.toNat + 1 - hp.addrRangeStart.toNat := by
  simp [sweepIds]

/-! ## The result list -/

theorem collectRaws_append (p : Params) (frames more : List Frame) :
    collectRaws p (frames ++ more) = collectRaws p frames ++ collectRaws p more := by
  simp [collectRaws]

@[simp] theorem collectRaws_nil (p : Params) : collectRaws p [] = [] := rfl

/-- What one frame gives to the list. -/
theorem collectRaws_singleton (p : Params) (f : Frame) :
    collectRaws p [f] = (rawMeasurement p f.payload).toList.filter (· != sentinelRaw) := by
  cases h : rawMeasurement p f.payload <;> simp [collectRaws, h]

theorem mem_collectRaws {p : Params} {frames : List Frame} {raw : Int} :
    raw ∈ collectRaws p frames ↔ raw ≠ sentinelRaw ∧ ∃ g ∈ frames, rawMeasurement p g.payload = some raw := by
  rw [collectRaws, List.mem_filter, List.mem_filterMap, bne_iff_ne, and_comm]

/-! ## The aggregate -/

/-- With a mean halfway between two tenths, the division gives the lower one and the tie rule decides (D30). -/
theorem roundTenths_tie (tieUp : Int → Bool) {sum q : Int} {count : Nat} (hpos : 0 < count)
    (h : 2 * (sum - q * count) = count) : roundTenths tieUp sum count = if tieUp q = true then q + 1 else q := by
  obtain ⟨hq, hr⟩ : sum / (count : Int) = q ∧ sum % (count : Int) = sum - q * count := by
    rw [Int.ediv_emod_unique (by omega), mul_comm (count : Int)]
    omega
  have hlo : ¬ 2 * (sum % (count : Int)) < count := by omega
  have hhi : ¬ (count : Int) < 2 * (sum % (count : Int)) := by omega
  simp only [roundTenths, if_neg hlo, if_neg hhi, hq]

theorem aggregate_of_ne_nil (h : raws ≠ []) :
    aggregate hp tieUp raws =
      if hp.plausibleMinTenths ≤ roundTenths tieUp raws.sum raws.length ∧
          roundTenths tieUp raws.sum raws.length ≤ hp.plausibleMaxTenths
      then some (roundTenths tieUp raws.sum raws.length) else none := by
  cases raws with
  | nil => exact absurd rfl h
  | cons raw raws => rfl

@[simp] theorem aggregate_nil : aggregate hp tieUp [] = none := rfl

/-- An accepted aggregate lies within the bounds. -/
theorem bounds_of_aggregate {v : Int} (h : aggregate hp tieUp raws = some v) :
    hp.plausibleMinTenths ≤ v ∧ v ≤ hp.plausibleMaxTenths := by
  have hne : raws ≠ [] := by
    rintro rfl
    cases h
  rw [aggregate_of_ne_nil hne] at h
  split_ifs at h with hbounds
  cases h
  exact hbounds

end Sys2Proof.Machine
end

section
/-! The attempts of a poll (45_host_poller.md R156, R166), and what a window without a marker leaves of them. -/

namespace Sys2Proof.Machine

variable {hp : HostParams} {tieUp : Int → Bool} {memoryAddress m : Byte} {windows : Nat → List ByteSeq} {s t : State} {i : Instr}
  {ops : List Instr}

/-! ## The attempts -/

/-- The attempts that a poll can make, numbered without an end: each runs from the state the one before it left, under the same constants. -/
theorem exists_attempts (hp : HostParams) (memoryAddress : Byte) (windows : Nat → List ByteSeq) (s : State) :
    ∃ (states : Nat → State) (answers : Nat → List Answer), states 0 = s ∧
      (∀ k, runOps (attemptOps hp memoryAddress (windows k)) (states k) = .next (states (k + 1), answers k)) ∧
      ∀ k, (states k).cfg = s.cfg := by
  choose next answers hrun hcfg using fun k => runOps_completes (attemptOps hp memoryAddress (windows k))
  refine ⟨Nat.rec s next, fun k => answers k (Nat.rec s next k), rfl, fun k => hrun k _, fun k => ?_⟩
  induction k with
  | zero => rfl
  | succ k ih => exact (hcfg k _).trans ih

/-- The poll stops at the first of them with an accepted aggregate, or at the last that it may make (R156, R166). -/
theorem pollAttempts_of_attempts {states : Nat → State} {answers : Nat → List Answer} {aggregates : Nat → Option Int} {p : Params}
    (hrun : ∀ k, runOps (attemptOps hp memoryAddress (windows k)) (states k) = .next (states (k + 1), answers k))
    (hcfg : ∀ k, (states k).cfg = p) (hagg : ∀ k, aggregate hp tieUp (collectRaws p (framesOf (answers k))) = aggregates k)
    (left first : Nat) :
    ∃ n, first ≤ n ∧ n ≤ first + left ∧ (∀ k, first ≤ k → k < n → aggregates k = none) ∧
      pollAttempts hp tieUp memoryAddress windows (left + 1) first (states first) = .next (states (n + 1), aggregates n) ∧
      (aggregates n = none → n = first + left) := by
  induction left generalizing first with
  | zero =>
    refine ⟨first, le_rfl, le_rfl, by omega, ?_, fun _ => rfl⟩
    cases hfirst : aggregates first <;> simp only [pollAttempts, hrun, hcfg, hagg, hfirst]
  | succ left ih =>
    cases hfirst : aggregates first with
    | some v =>
      refine ⟨first, le_rfl, by omega, by omega, ?_, by simp [hfirst]⟩
      simp only [pollAttempts, hrun, hcfg, hagg, hfirst]
    | none =>
      obtain ⟨n, hlo, hhi, hbefore, hpoll, hlast⟩ := ih (first + 1)
      refine ⟨n, by omega, by omega, fun k hk hkn => ?_, ?_, fun h => by have := hlast h; omega⟩
      · obtain rfl | hk := hk.eq_or_lt
        · exact hfirst
        · exact hbefore k hk hkn
      · rw [← hpoll]
        simp only [pollAttempts, hrun, hcfg, hagg, hfirst]

/-! ## Windows without a marker -/

/-- A marker comes into `BUF` by the bytes that a `FEED` brings and by nothing else. -/
theorem not_mem_buf_of_exec (h : exec i s = .next t) (hbuf : m ∉ s.buf) (hi : m ∉ fedBytes i) : m ∉ t.buf := by
  cases execEffect_of_exec h with
  | answers | raises => exact hbuf
  | appends raw hraw =>
    subst hraw
    exact List.not_mem_append hbuf hi
  | drops n => exact fun hm => hbuf (List.mem_of_mem_drop hm)
  | empties => exact List.not_mem_nil

/-- An operation that brings no marker, and hands no frame to the host while there is none in `BUF`. -/
def Silent (m : Byte) (i : Instr) : Prop :=
  m ∉ fedBytes i ∧ ∀ s t, s.cfg.marker = m → m ∉ s.buf → exec i s = .next t → framesOf t.answer.toList = []

theorem silent_clear : Silent m .clear :=
  ⟨List.not_mem_nil, fun _ _ _ _ h => by cases h; rfl⟩

theorem silent_encreq (sender destinationId memoryAddress : Byte) :
    Silent m (.encreq sender.toNat destinationId.toNat memoryAddress.toNat) := by
  refine ⟨List.not_mem_nil, fun s t _ _ h => ?_⟩
  obtain rfl := Host.Outcome.next.inj (h.symm.trans (execEncreq_toNat sender destinationId memoryAddress s))
  rfl

/-- Appended or refused, the bytes of a `FEED` are answered without a frame. -/
theorem silent_feed {raw : ByteSeq} (hraw : m ∉ raw) : Silent m (.feed raw) := by
  refine ⟨hraw, fun s t _ _ h => ?_⟩
  obtain ⟨-, e⟩ | ⟨-, e⟩ := execFeed_cases raw s <;>
  · obtain rfl := Host.Outcome.next.inj (h.symm.trans e)
    rfl

/-- The scan of a buffer without a marker is at its end (R137). -/
theorem silent_drain : Silent m .drain := by
  refine ⟨List.not_mem_nil, fun s t hm hbuf h => ?_⟩
  have hb : Blocked s.cfg.marker s.buf := .inl (hm ▸ hbuf)
  have e : exec .drain s = .next (s.reply { st := .none, frames := some [] }) := by
    simp [exec, execDrain, drainLoop, execNextframe_blocked hb, State.reply]
  obtain rfl := Host.Outcome.next.inj (h.symm.trans e)
  rfl

theorem silent_of_mem_attemptOps {reads : List ByteSeq} (hreads : ∀ r ∈ reads, m ∉ r)
    (hi : i ∈ attemptOps hp memoryAddress reads) : Silent m i := by
  simp only [attemptOps, sweepOps, receiveOps, List.mem_append, List.mem_map, List.mem_flatMap, List.mem_cons, List.not_mem_nil,
    or_false] at hi
  obtain (hclear | ⟨d, -, rfl⟩) | ⟨r, hr, rfl | rfl⟩ := hi
  · split_ifs at hclear
    · exact List.mem_singleton.mp hclear ▸ silent_clear
    · cases hclear
  · exact silent_encreq hp.senderId d memoryAddress
  · exact silent_feed (hreads r hr)
  · exact silent_drain

theorem runOps_silent {answers : List Answer} (hops : ∀ i ∈ ops, Silent m i) (hm : s.cfg.marker = m) (hbuf : m ∉ s.buf)
    (h : runOps ops s = .next (t, answers)) : m ∉ t.buf ∧ framesOf answers = [] := by
  induction ops generalizing s answers with
  | nil =>
    cases h
    exact ⟨hbuf, rfl⟩
  | cons i ops ih =>
    obtain ⟨s', rest, hi, hrest, rfl⟩ := exists_of_runOps_cons h
    obtain ⟨⟨hfed, hnone⟩, hops⟩ := List.forall_mem_cons.mp hops
    obtain ⟨hbuf', hframes⟩ := ih hops (by rw [exec_cfg hi, hm]) (not_mem_buf_of_exec hi hbuf hfed) hrest
    exact ⟨hbuf', by rw [framesOf_append, hnone s s' hm hbuf hi, hframes, List.nil_append]⟩

end Sys2Proof.Machine
end

section
/-! The statements about the host's poller (45_host_poller.md). -/

namespace Sys2Proof.Machine

/-- Settles O55: as numbers the ids are consecutive. -/
theorem sweepCoversTheRangeInOrder : Obligations.SweepCoversTheRangeInOrder := by
  refine fun hp => ⟨fun d => mem_sweepIds, sweepIds_pairwise_lt hp, fun hle => ?_⟩
  rw [length_sweepIds, Nat.sub_add_comm (BitVec.le_def.mp hle)]

/-- Settles O56, by the list of one frame and by the list's members. -/
theorem collectLeavesOutTheSentinel : Obligations.CollectLeavesOutTheSentinel := by
  refine fun p frames more f => ⟨collectRaws_append p frames more, collectRaws_nil p, fun raw h hne => ?_, fun h => ?_, fun h => ?_,
    fun raw => mem_collectRaws⟩
  · simpa [collectRaws_singleton, h, sentinelRaw] using hne
  · simp [collectRaws_singleton, h, sentinelRaw]
  · simp [collectRaws_singleton, h]

/-- Settles O57: the value is the rounded mean. -/
theorem aggregateIsTheNearestTenthWithinBounds : Obligations.AggregateIsTheNearestTenthWithinBounds := by
  refine fun hp tieUp raws => ⟨fun h => h ▸ aggregate_nil, fun hne => ?_⟩
  have hpos : 0 < raws.length := List.length_pos_iff.mpr hne
  refine ⟨roundTenths tieUp raws.sum raws.length, roundTenths_near tieUp raws.sum hpos, fun q => roundTenths_tie tieUp hpos,
    fun hin => ?_, fun hout => ?_⟩
  · rw [aggregate_of_ne_nil hne, if_pos hin]
  · rw [aggregate_of_ne_nil hne, if_neg (by omega)]

/-- Settles O58: the attempts numbered without an end, and the one at which the poll stops. -/
theorem pollEndsWithTheFirstAcceptedAggregate : Obligations.PollEndsWithTheFirstAcceptedAggregate := by
  intro hp tieUp memoryAddress windows s
  obtain ⟨states, answers, hstart, hrun, hcfg⟩ := exists_attempts hp memoryAddress windows s
  obtain ⟨left, hleft⟩ : ∃ left, max 1 hp.maxAttempts = left + 1 := ⟨max 1 hp.maxAttempts - 1, by omega⟩
  obtain ⟨n, -, hn, hbefore, hpoll, hlast⟩ := pollAttempts_of_attempts (tieUp := tieUp) hrun hcfg (fun _ => rfl) left 0
  rw [hstart, ← hleft] at hpoll
  exact ⟨n, states, answers, _, by omega, hstart, fun k _ => hrun k, fun k => hbefore k k.zero_le, rfl, hpoll,
    fun v => bounds_of_aggregate, fun h => by have := hlast h; omega⟩

/-- Settles O59: no attempt of the poll hands a frame to the host, so the last one has no aggregate. -/
theorem pollWithoutAMarkerFails : Obligations.PollWithoutAMarkerFails := by
  intro hp tieUp memoryAddress windows s hbuf hreads
  obtain ⟨n, states, answers, result, -, hstart, hrun, -, hresult, hpoll, -, -⟩ :=
    pollEndsWithTheFirstAcceptedAggregate hp tieUp memoryAddress windows s
  have hsilent : ∀ k, ∀ i ∈ attemptOps hp memoryAddress (windows k), Silent s.cfg.marker i :=
    fun k _ => silent_of_mem_attemptOps (hreads k)
  have hstates : ∀ k ≤ n, (states k).cfg = s.cfg ∧ s.cfg.marker ∉ (states k).buf := by
    intro k
    induction k with
    | zero =>
      rw [hstart]
      exact fun _ => ⟨rfl, hbuf⟩
    | succ k ih =>
      intro hk
      obtain ⟨hcfg, hnomarker⟩ := ih (by omega)
      have hattempt := hrun k (by omega)
      exact ⟨(runOps_cfg hattempt).trans hcfg, (runOps_silent (hsilent k) (by rw [hcfg]) hnomarker hattempt).1⟩
  obtain ⟨hcfg, hnomarker⟩ := hstates n le_rfl
  obtain ⟨-, hframes⟩ := runOps_silent (hsilent n) (by rw [hcfg]) hnomarker (hrun n le_rfl)
  obtain rfl : none = result := by simpa [hframes] using hresult
  exact ⟨_, hpoll⟩

end Sys2Proof.Machine
end

section
/-! Fault entry: when an operation takes it, and which cause bytes from the interface can raise (60_exceptions.md R181, R182 to R184). -/

namespace Sys2Proof.Machine

variable {i : Instr} {s t : State}

/-- An operation enters a fault, or it keeps `FAULT` and answers another status (R181, R185). -/
theorem raises_or_keeps_fault_of_exec (h : exec i s = .next t) :
    (∃ c, Raises i s c ∧ t = s.raise c) ∨ (t.fault = s.fault ∧ ∀ a, t.answer = some a → a.st ≠ .fault) := by
  cases execEffect_of_exec h with
  | raises c hc => exact .inl ⟨c, hc, rfl⟩
  | answers _ _ hst | drops _ _ _ _ hst => exact .inr ⟨rfl, by rintro _ ⟨⟩; exact hst⟩
  | appends | empties => exact .inr ⟨rfl, by rintro _ ⟨⟩; exact nofun⟩

/-- The other two causes need an operand of 256 or more, and a well-formed operation has none (R182, R183; log entry 6). -/
theorem Raises.overflow_of_wf {c : Cause} (hc : Raises i s c) (hi : i.wf = true) :
    c = .bufferOverflow ∧ ∃ raw, i = .feed raw ∧ exceedsCap s.cfg.bufCap (s.bufLen + raw.length) = true := by
  obtain ⟨-, data, rfl, n, hn, hle⟩ | ⟨-, x, y, z, rfl, hle⟩ | hoverflow := hc
  · have hlt : n < 256 := of_decide_eq_true (List.all_eq_true.mp hi n hn)
    omega
  · simp only [Instr.wf, isByte, Bool.and_eq_true, decide_eq_true_eq] at hi
    omega
  · exact hoverflow

end Sys2Proof.Machine
end

section
/-! The statements about faults (60_exceptions.md). -/

namespace Sys2Proof.Machine

/-- Settles O46: the status Fault comes from fault entry alone, and `Raises` says on which operands it is taken. -/
theorem faultsArePreciseAndRecordTheFirstCause : Obligations.FaultsArePreciseAndRecordTheFirstCause := by
  intro i s t a h ha hst
  obtain ⟨c, hc, rfl⟩ | ⟨-, hother⟩ := raises_or_keeps_fault_of_exec h
  · refine ⟨c, rfl, hc.imp_right (Or.imp_right ?_)⟩
    rintro ⟨hcause, raw, hfeed, hcap⟩
    obtain ⟨cap, hfinite, hlt⟩ := exceedsCap_eq_true.mp hcap
    exact ⟨hcause, raw, cap, hfeed, hfinite, hlt⟩
  · exact absurd hst (hother a ha)

/-- Settles O47: fault entry would have answered Fault. -/
theorem otherStatusesRecordNoFault : Obligations.OtherStatusesRecordNoFault := by
  intro i s t a h ha hst
  obtain ⟨c, -, rfl⟩ | ⟨hkeeps, -⟩ := raises_or_keeps_fault_of_exec h
  · obtain rfl := Option.some.inj ha
    exact absurd rfl hst
  · exact hkeeps

/-- Settles O49: the operation run was decoded, so it is well-formed and can raise the overflow only. -/
theorem onlyOverflowArisesAtTheInterface : Obligations.OnlyOverflowArisesAtTheInterface := by
  intro s t h hs ht
  obtain rfl | ⟨i, rest, hd, he⟩ := step_next_cases h
  · exact absurd hs ht
  · obtain ⟨c, hc, rfl⟩ | ⟨hkeeps, -⟩ := raises_or_keeps_fault_of_exec he
    · obtain ⟨hwf, -⟩ := encode_of_decode hd
      obtain ⟨rfl, raw, rfl, hcap⟩ := hc.overflow_of_wf hwf
      obtain ⟨cap, hfinite, hlt⟩ := exceedsCap_eq_true.mp hcap
      exact ⟨if_pos hs, raw, rest, cap, hd, hfinite, hlt⟩
    · exact absurd (hkeeps.trans hs) ht

end Sys2Proof.Machine
end

section
/-! The statement about completion (70_reset_and_hazards.md). -/

namespace Sys2Proof.Machine

/-- Settles O9: `exec_effect` has a next state for each operation; for `NEXTFRAME` and `DRAIN` it rests on `execNextframe_spec` and
`execDrain_spec`, where the bounds of R142 and R146 hold and every drop stays within `BUF`. -/
theorem everyOperationCompletes : Obligations.EveryOperationCompletes := by
  intro i s
  obtain ⟨t, hnext, -⟩ := exec_effect i s
  exact ⟨t, hnext⟩

end Sys2Proof.Machine
end
